-- ==== Sys2Proof/Word.lean ====
section
/-! DEFINITION. The bit-vector types of the codec (00_scope.md R7, R8). -/

namespace Sys2Proof

/-- `bits64` of R9: the width of VIN, VOUT and the accumulator (R7). -/
abbrev Word := BitVec 64

/-- A byte: a wire byte, a buffer cell's value or a CMD word (R7, R70, R80). -/
abbrev Byte := BitVec 8

end Sys2Proof
end

