-- ==== Sys2Proof/Syntax.lean ====
section
/-! DEFINITION. The instructions: one constructor per row of spec/opcode_table.json. The first five rows are command
words (format CMD8, R80 to R82), the last two are the bytes of the wire format (format WIRE8, R70 to R72). -/

namespace Sys2Proof

/-- One constructor per row of the opcode table. -/
inductive Instr where
  /-- ENCODE, CMD = 0x00 (R105). -/
  | encode
  /-- SIZE, CMD = 0x01 (R109). -/
  | size
  /-- DECODE, CMD = 0x02 (R130). -/
  | decode
  /-- RESERVED_OP3, CMD = 0x03 (R82). -/
  | reservedOp3
  /-- RESERVED_RSVD: CMD[7:2] = `rsvd` ≠ 0, CMD[1:0] = `op` (R82). -/
  | reservedRsvd (rsvd : BitVec 6) (op : BitVec 2)
  /-- WIRE_CONTINUATION_BYTE: bit 7 = 1, `g7` in bits 6..0 (R71). -/
  | wireContinuation (g7 : BitVec 7)
  /-- WIRE_FINAL_BYTE: bit 7 = 0, the sign flag in bit 6, `g6` in bits 5..0 (R72). -/
  | wireFinal (sign : Bool) (g6 : BitVec 6)
  deriving DecidableEq, Repr

/-- Whether the row has the table's format CMD8: the word is one the host writes to CMD (R80). -/
def Instr.isCommand : Instr → Bool
  | .encode => true
  | .size => true
  | .decode => true
  | .reservedOp3 => true
  | .reservedRsvd _ _ => true
  | .wireContinuation _ => false
  | .wireFinal _ _ => false

end Sys2Proof
end

