-- ==== Sys2Proof/WellFormed.lean ====
section
/-! DEFINITION. Which terms of `Instr` stand for a word of the table. -/

namespace Sys2Proof

/-- A term is well formed when some word of its row encodes it. The only check is RESERVED_RSVD's: its RSVD field is
not zero (R82); every other term is well formed. -/
def Instr.wellFormed : Instr → Bool
  | .encode => true
  | .size => true
  | .decode => true
  | .reservedOp3 => true
  | .reservedRsvd rsvd _ => rsvd != 0#6
  | .wireContinuation _ => true
  | .wireFinal _ _ => true

end Sys2Proof
end

