-- ==== Sys2Proof/Decode.lean ====
section
/-! DEFINITION. Reading and writing instruction words. A CMD8 word is what the host writes to CMD (R80, R81); a
WIRE8 byte is what a running DECODE reads from the buffer (R70 to R72). The two formats share all 256 byte values,
so which decoder applies is decided by where the byte comes from, never by the byte. -/

namespace Sys2Proof

/-- OP, bits 1..0 of a CMD word (R22, R80). -/
def cmdOp (w : Byte) : BitVec 2 := w.extractLsb' 0 2

/-- RSVD, bits 7..2 of a CMD word (R22, R80). -/
def cmdRsvd (w : Byte) : BitVec 6 := w.extractLsb' 2 6

/-- The command a CMD word selects (R81). Total: every one of the 256 words has a row. -/
def decodeCommand (w : Byte) : Instr :=
  if cmdRsvd w = 0#6 then
    if cmdOp w = 0#2 then .encode
    else if cmdOp w = 1#2 then .size
    else if cmdOp w = 2#2 then .decode
    else .reservedOp3
  else .reservedRsvd (cmdRsvd w) (cmdOp w)

/-- The wire format's row a byte read by DECODE belongs to (R70: bit 7 alone decides). Total on all 256 bytes. -/
def decodeWire (b : Byte) : Instr :=
  if b.getLsbD 7 then .wireContinuation (b.extractLsb' 0 7)
  else .wireFinal (b.getLsbD 6) (b.extractLsb' 0 6)

/-- Why a list of bytes holds no instruction. -/
inductive DecodeError where
  /-- There is no byte to read. -/
  | noWord
  deriving DecidableEq, Repr

/-- The first command word of a list of CMD words, with the words after it. A command is one byte long (R80). -/
def decodeCommandBytes : List Byte → Except DecodeError (Instr × List Byte)
  | [] => .error .noWord
  | w :: rest => .ok (decodeCommand w, rest)

/-- The first wire byte of a sequence, with the bytes after it (R70). -/
def decodeWireBytes : List Byte → Except DecodeError (Instr × List Byte)
  | [] => .error .noWord
  | b :: rest => .ok (decodeWire b, rest)

/-- The word of an instruction, from the tables of R81 (commands), R71 and R72 (wire bytes). -/
def encode : Instr → Byte
  | .encode => 0x00#8
  | .size => 0x01#8
  | .decode => 0x02#8
  | .reservedOp3 => 0x03#8
  | .reservedRsvd rsvd op => rsvd ++ op
  | .wireContinuation g7 => 1#1 ++ g7
  | .wireFinal sign g6 => 0#1 ++ BitVec.ofBool sign ++ g6

/-- The instruction the command decoder reads from a word of the table. Every row of the table has 8 bits; a word the
host places is a CMD word, so `decodeCommand` reads it (the wire bytes are read by `decodeWire`). DEDUCED, log
entry 5. -/
def decodeTableWord (nbits w : Nat) : Option Instr :=
  if nbits = 8 ∧ w < 256 then some (decodeCommand (BitVec.ofNat 8 w)) else none

end Sys2Proof
end

