-- ==== Sys2Proof/Config.lean ====
section
/-! DEFINITION. What the spec leaves open: the OPEN parameters of R7 and the one free value of R107. None has a
body, so no proof can see a value of it. -/

namespace Sys2Proof

/-- `ADDR_BITS` (R7, D4): the width of a buffer address. OPEN: no value is fixed. DESIGN CHOICE, log entry 2. -/
opaque Config.addrBits : Nat

/-- `N_INSTANCES` less one (R7, D13): the model has `1 + moreCodecs` codec instances, so at least one.
OPEN: no value is fixed. DESIGN CHOICE, log entry 2. -/
opaque Config.moreCodecs : Nat

/-- The free value of R107 (D5): from it comes the length of the piece that an ENCODE ending in BufferTooSmall
leaves written. Its argument is `State.draws`, which grows with every such ENCODE. DESIGN CHOICE, log entry 3. -/
opaque Config.prefixLen : Nat → Nat

end Sys2Proof
end

