-- ==== Sys2Proof/Machine/State.lean ====
section
/-! DEFINITION. The state of the codec instances, of the buffer they share and of the host that drives them, as plain
data, and the state after reset. -/

namespace Sys2Proof.Machine

/-- Why the machine stops with a fault. -/
inductive Fault where
  /-- `fault(Unwritten)` of R166: a command reads an operand register that holds ⊥, DECODE or the host reads a buffer
  cell that holds ⊥, or the host reads STATUS, COUNT or VOUT while it holds ⊥. Raised by every operand, buffer and result
  read. Safe (D11). -/
  | unwritten
  /-- A buffer access at an address that is not below 2^ADDR_BITS: BUF has no such cell (R29, R50). Raised by POKE, by a
  host read of the buffer and by `bufRead` and `bufWrite`; no command reaches it in a state that meets `State.Inv`.
  Safe. DEDUCED, log entry 12. -/
  | noSuchCell
  /-- A wire byte is offered where no DECODE is accumulating: DONE and FAILED have no outgoing transitions (R35), and an
  instance that runs no DECODE consumes no byte (R65). A stuck state, raised by the two wire-byte rows. Safe. DEDUCED,
  log entry 17. -/
  | noTransition
  /-- A command is given to an instance that still runs one: it has no step until that one completes (R174). A stuck
  state, raised by the five command rows. The step never raises it: there the host waits. Safe (log entry 7). -/
  | busy
  deriving DecidableEq, Repr

/-- Why the machine has no step for what it is asked. -/
inductive Refusal where
  /-- An instruction without a meaning yet; raised only by an arm of `exec`. Safe. -/
  | notModelled (mnemonic : String)
  /-- `refuse(LenRange)` of R166: a command reads LEN > 2^ADDR_BITS. Raised by ENCODE and DECODE. Safe (D4). -/
  | lenRange
  /-- `refuse(NotInterface)` of R166: the host reads CMD, or writes STATUS, COUNT or VOUT. Raised by the host's reads and
  writes. Safe. -/
  | notInterface
  /-- The host reads VIN, POS or LEN: R21 gives these registers no host read and R195 no such interaction. Raised by
  the host's reads. Safe. DEDUCED, log entry 9. -/
  | operandRead
  /-- The host writes a value wider than the register: only values of its width can be written (R27, R195). Raised by
  the host's writes. Safe. DEDUCED, log entry 12. -/
  | valueTooWide
  /-- The host names a codec instance that does not exist (R7, R174). Raised by the events that name one. Safe. DEDUCED, log
  entry 12. -/
  | noSuchCodec
  deriving DecidableEq, Repr

/-- The outcomes of a command (R23, R161). -/
inductive Status where
  | ok
  | bufferTooSmall
  | truncatedEncoding
  | overlong
  | illegalCommand
  deriving DecidableEq, Repr

/-- How far a running ENCODE has come (R105, R107). -/
inductive EncPhase where
  /-- In the loop of R105. -/
  | writing
  /-- In ENCODE_PREFIX of R107, `left` bytes still to be written. -/
  | short (left : Nat)
  /-- Behind the loop: `finish(OK)` is next. -/
  | done
  deriving DecidableEq, Repr

/-- The encoder's state during an ENCODE (R33), with the position the pseudocode of R105 latches. DEDUCED, log
entry 13. -/
structure EncState where
  /-- `neg`: the sign of VIN. -/
  neg : Bool
  /-- `m`: the remaining magnitude. -/
  m : Word
  /-- `k`: the bytes emitted so far. -/
  k : Nat
  /-- `p0`: POS when the command was issued. -/
  base : Nat
  phase : EncPhase
  deriving DecidableEq, Repr

/-- What a FAILED decoder carries (R34). -/
inductive DecFailure where
  | truncated
  | overlong
  deriving DecidableEq, Repr

/-- The phase of the decoder's state machine (R34). -/
inductive DecPhase where
  | accumulating
  | done
  | failed (why : DecFailure)
  deriving DecidableEq, Repr

/-- The decoder's state during a DECODE (R34), with the operands the pseudocode of R130 latches. DEDUCED, log
entry 13. -/
structure DecState where
  phase : DecPhase
  /-- `acc`: the accumulated magnitude. -/
  acc : Word
  /-- `off`: the bit offset. -/
  off : Nat
  /-- `k`: the bytes consumed. -/
  k : Nat
  /-- `sign`: bit 6 of the final byte. -/
  sign : Bool
  /-- `p0`: POS when the command was issued. -/
  base : Nat
  /-- `L`: LEN when the command was issued. -/
  limit : Nat
  deriving DecidableEq, Repr

/-- The internal state of an instance (R33, R34): nothing survives a command (R36). -/
inductive Engine where
  | idle
  | encoding (e : EncState)
  | decoding (d : DecState)
  deriving DecidableEq, Repr

/-- One codec instance: the interface registers of R21 and the internal state. `none` is the spec's ⊥ (R10, R21). -/
structure Codec where
  /-- CMD: the word the host has written and the block has not yet taken. It holds nothing otherwise (R22, R190).
  DESIGN CHOICE, log entry 4. -/
  cmd : Option Byte
  vin : Option Word
  /-- POS, a natural number below 2^ADDR_BITS (R7, R27). -/
  pos : Option Nat
  /-- LEN, a natural number below 2^(ADDR_BITS+1) (R7, R27). -/
  len : Option Nat
  status : Option (BitVec 3)
  count : Option (BitVec 4)
  vout : Option Word
  engine : Engine
  deriving DecidableEq, Repr

/-- An instance after reset: every register ⊥, no command running (R190, log entry 1). -/
def Codec.reset : Codec :=
  { cmd := none, vin := none, pos := none, len := none, status := none, count := none, vout := none,
    engine := .idle }

/-- The interface registers by name (R21). -/
inductive Reg where
  | cmd
  | vin
  | pos
  | len
  | status
  | count
  | vout
  deriving DecidableEq, Repr

/-- What the host does next (R6, R195), or which running command makes its next buffer access (R58, R62). An instance is
named by its number, from 0. -/
inductive Event where
  /-- The host writes a register. A write of CMD issues a command that runs as one step (R5, R195). -/
  | write (codec : Nat) (r : Reg) (v : Nat)
  /-- The host writes CMD, and the command's buffer accesses interleave with what follows (R58, R62). -/
  | start (codec : Nat) (w : Byte)
  /-- The command this instance runs makes its next access. -/
  | advance (codec : Nat)
  /-- POKE: the host writes one buffer cell (R84, R195). -/
  | poke (addr : Nat) (b : Byte)
  /-- The host reads a result register (R195). -/
  | read (codec : Nat) (r : Reg)
  /-- The host reads one buffer cell, once no command runs (R60, R201; log entry 18). -/
  | peek (addr : Nat)
  /-- Reset of all instances (R190, R191). -/
  | reset
  deriving DecidableEq, Repr

/-- A fault or refusal as the record of R166 keeps it. -/
inductive Stop where
  | fault (f : Fault)
  | refusal (r : Refusal)
  deriving DecidableEq, Repr

/-- The buffer memory BUF (R29): the cells that hold a byte, addresses strictly rising. A cell that is not listed holds
⊥. -/
abbrev Memory := List Host.Cell

/-- The whole machine: the codec instances, the buffer they share and the host's side. -/
structure State where
  /-- `ADDR_BITS` (R7): fixed, no step changes it. -/
  addrBits : Nat
  /-- The instances numbered below the selected one, in order. -/
  before : List Codec
  /-- The selected instance: the one `exec` acts on. Its number is the length of `before`. -/
  core : Codec
  /-- The instances numbered above the selected one, in order. -/
  after : List Codec
  /-- BUF (R29). -/
  buf : Memory
  /-- What the host and the schedule have in store, the next one first (R196, R62).
  DESIGN CHOICE, log entry 6. -/
  script : List Event
  /-- What the host's last read returned (R195); the model's own. DESIGN CHOICE, log entry 8. -/
  answer : Option Word
  /-- How many free values have been used (R107); the model's own. DESIGN CHOICE, log entry 3. -/
  draws : Nat
  /-- The record of a fault or refusal (R166, R190). -/
  record : Option Stop
  deriving DecidableEq, Repr

/-- The state after reset and at the start of a run, for given parameters (R190, R191): every register ⊥, no command
running, no buffer cell written, the record empty. -/
def State.resetWith (addrBits moreCodecs : Nat) : State :=
  { addrBits := addrBits, before := [], core := Codec.reset, after := List.replicate moreCodecs Codec.reset,
    buf := [], script := [], answer := none, draws := 0, record := none }

/-- The machine right after reset, its OPEN parameters left open (R7, R190). -/
def State.reset : State := State.resetWith Config.addrBits Config.moreCodecs

end Sys2Proof.Machine
end

