-- ==== Sys2Proof/Machine/Flags.lean ====
section
/-! DEFINITION. The wire format's two flags (R31) and the codes of STATUS (R23). The block has no other flags. -/

namespace Sys2Proof.Machine

/-- The continuation flag: bit 7 of a wire byte (R70). -/
def continuationFlag (b : Byte) : Bool := b.getLsbD 7

/-- The sign flag: bit 6 of the final byte (R72). -/
def signFlag (b : Byte) : Bool := b.getLsbD 6

/-- The code of a status (R23, R161). -/
def statusCode : Status → BitVec 3
  | .ok => 0#3
  | .bufferTooSmall => 1#3
  | .truncatedEncoding => 2#3
  | .overlong => 3#3
  | .illegalCommand => 4#3

/-- The status a FAILED decoder ends with (R34, R35). -/
def failureStatus : DecFailure → Status
  | .truncated => .truncatedEncoding
  | .overlong => .overlong

end Sys2Proof.Machine
end

