-- ==== Sys2Proof/Machine/Operands.lean ====
section
/-! DEFINITION. The arithmetic of the encoder and the decoder on 64-bit patterns and bytes (R9, R100 to R106, R115),
and the groups of a wire byte (R71, R72). -/

namespace Sys2Proof.Machine

/-- `neg64` of R9: modular 64-bit negation. -/
def neg64 (x : Word) : Word := BitVec.ofNat 64 (2 ^ 64 - x.toNat)

/-- `INT64_MIN` (R9). -/
def int64Min : Word := 0x8000000000000000#64

/-- `INT64_MAX` (R9). -/
def int64Max : Word := 0x7FFFFFFFFFFFFFFF#64

/-- `neg` of R100: bit 63 of the value. -/
def isNegative (v : Word) : Bool := v.getLsbD 63

/-- `m` of R100: the magnitude, read unsigned from here on. -/
def magnitude (v : Word) : Word := if isNegative v then neg64 v else v

/-- The final-byte test of R101: the unsigned reading is at most 63. -/
def fitsFinal (m : Word) : Bool := decide (m.toNat ≤ 63)

/-- The magnitude shift of R102: logical right shift by 7. -/
def shiftGroup (m : Word) : Word := m >>> 7

/-- The loop of R103, `n` the count so far; R104 bounds its turns. -/
def sizeLoop : Nat → Word → Nat → Nat
  | 0, _, n => n
  | turns + 1, m, n => if fitsFinal m then n else sizeLoop turns (shiftGroup m) (n + 1)

/-- The bytes a magnitude takes (R103). -/
def sizeOfMagnitude (m : Word) : Nat := sizeLoop 10 m 1

/-- `size_of` of R103. -/
def encodedSize (v : Word) : Nat := sizeOfMagnitude (magnitude v)

/-- The continuation byte ENCODE writes: `0x80 | (m & 0x7F)` (R71, R105). -/
def continuationByte (m : Word) : Byte := 0x80#8 ||| (m.setWidth 8 &&& 0x7F#8)

/-- The final byte ENCODE writes: `(m & 0x3F) | signFlagBit` (R72, R105). -/
def finalByte (neg : Bool) (m : Word) : Byte := (m.setWidth 8 &&& 0x3F#8) ||| (if neg then 0x40#8 else 0x00#8)

/-- Byte `k` of ENCODE's output in the closed form of R106. -/
def encodedByte (v : Word) (k : Nat) : Byte :=
  if k + 1 = encodedSize v then finalByte (isNegative v) (magnitude v >>> (7 * k))
  else continuationByte (magnitude v >>> (7 * k))

/-- ENCODE's output: the bytes 0 .. size_of(v)−1 of R106. -/
def encodedBytes (v : Word) : List Byte := (List.range (encodedSize v)).map (encodedByte v)

/-- The capacity of R107: `LEN − POS`, and 0 when POS > LEN. -/
def capacity (pos len : Nat) : Nat := if pos ≤ len then len - pos else 0

/-- G7 of a continuation byte: bits 6..0 (R71). -/
def group7 (b : Byte) : BitVec 7 := b.extractLsb' 0 7

/-- G6 of a final byte: bits 5..0 (R72). -/
def group6 (b : Byte) : BitVec 6 := b.extractLsb' 0 6

end Sys2Proof.Machine
end

