-- ==== Sys2Proof/Machine/Ops.lean ====
section
/-! DEFINITION. The named operations over the buffer, the registers and the instances: the pseudocode primitives of R10,
the common checks of R167 and `finish` of R161, the one way a command ends and reports an error (the block has no
traps: R160, R171). -/

namespace Sys2Proof.Machine

/-- What a step or a part of one answers. -/
abbrev Result := Host.Outcome State Fault Refusal

/-- Go on with the next state, if there is one. -/
def andThen (r : Result) (k : State → Result) : Result :=
  match r with
  | .next s => k s
  | .fault f => .fault f
  | .refused q => .refused q

/-! ## The buffer -/

/-- The canonical form of the buffer: addresses strictly rising. (An entry always holds a byte and an unlisted cell holds
⊥, so no entry equals what an unlisted address reads as.) -/
abbrev Memory.wf (m : Memory) : Prop := m.Pairwise (fun x y => x.1 < y.1)

/-- What cell `a` holds; `none` is ⊥ (R29). -/
def Memory.read (m : Memory) (a : Nat) : Option Byte :=
  match m with
  | [] => none
  | (x, b) :: rest => if x = a then some b else Memory.read rest a

/-- `m` with byte `b` in cell `a` and no other cell changed (R52). -/
def Memory.write (m : Memory) (a : Nat) (b : Byte) : Memory :=
  match m with
  | [] => [(a, b)]
  | (x, c) :: rest =>
    if a < x then (a, b) :: (x, c) :: rest
    else if a = x then (a, b) :: rest
    else (x, c) :: Memory.write rest a b

/-- `m` with the bytes `bs` in the cells `a`, `a + 1`, ... (R58: ascending, one at a time). -/
def Memory.writeBytes (m : Memory) (a : Nat) (bs : List Byte) : Memory :=
  match bs with
  | [] => m
  | b :: rest => Memory.writeBytes (Memory.write m a b) (a + 1) rest

/-- `BufRead(a)` (R51): the byte of the cell, and the spec's own `fault(Unwritten)` where it holds ⊥ (R51, R166, D11). -/
def bufRead (s : State) (a : Nat) (k : Byte → Result) : Result :=
  if a < 2 ^ s.addrBits then
    match s.buf.read a with
    | some b => k b
    | none => .fault .unwritten
  else .fault .noSuchCell

/-- `BufWrite(a, b)` (R52). -/
def bufWrite (s : State) (a : Nat) (b : Byte) : Result :=
  if a < 2 ^ s.addrBits then .next { s with buf := s.buf.write a b } else .fault .noSuchCell

/-! ## Registers of the selected instance -/

/-- Read a register: its value, and the spec's own `fault(Unwritten)` where it holds ⊥ (R10, R166, R167, D11). -/
def withValue {α : Type} (r : Option α) (k : α → Result) : Result :=
  match r with
  | some v => k v
  | none => .fault .unwritten

/-- The LEN check of R166: a command that reads LEN > 2^ADDR_BITS is refused. -/
def withinRange (s : State) (len : Nat) (k : Result) : Result :=
  if len ≤ 2 ^ s.addrBits then k else .refused .lenRange

/-- The internal state of the selected instance. -/
def setEngine (s : State) (e : Engine) : State := { s with core := { s.core with engine := e } }

/-- `finish` of R161: STATUS, COUNT and VOUT are written and the instance is idle (R28: a command writes all three and no
other register). -/
def finish (st : Status) (count : Option (BitVec 4)) (vout : Option Word) (s : State) : State :=
  { s with core := { s.core with status := some (statusCode st), count := count, vout := vout, engine := .idle } }

/-- `finish(OK)`: COUNT holds the count; VOUT is as the command's rule says (R24, R26). -/
def finishOk (count : Nat) (vout : Option Word) (s : State) : State :=
  finish .ok (some (BitVec.ofNat 4 count)) vout s

/-- `finish` with an error: COUNT and VOUT are ⊥ (R161, D10). -/
def finishError (st : Status) (s : State) : State := finish st none none s

/-- A command has no step on an instance that still runs one (R174). -/
def whenIdle (s : State) (k : State → Result) : Result :=
  if s.core.engine = .idle then k s else .fault .busy

/-! ## The instances -/

/-- The instances by number (R174). -/
def State.codecs (s : State) : List Codec := s.before ++ s.core :: s.after

/-- `s` with instance `i` selected, if there is one. No instance changes. -/
def select (i : Nat) (s : State) : Option State :=
  match s.codecs.drop i with
  | [] => none
  | c :: rest => some { s with before := s.codecs.take i, core := c, after := rest }

/-- The first instance that runs a command, if one does. -/
def firstBusy (s : State) : Option Nat := s.codecs.findIdx? (fun c => c.engine != .idle)

/-- Reset (R190, R191): every register of every instance ⊥ and none running; BUF and the record are unchanged. -/
def resetAll (s : State) : State :=
  { s with
    before := s.before.map (fun _ => Codec.reset)
    core := Codec.reset
    after := s.after.map (fun _ => Codec.reset) }

end Sys2Proof.Machine
end

