-- ==== Sys2Proof/Machine/Engine.lean ====
section
/-! DEFINITION. The loops inside a command, one buffer access at a time (R58): the loop of R105 with ENCODE_PREFIX of R107,
and the decoder's state machine of R35. A command is `begin…` and then `drain`; commands that run at the same time are
`begin…` and then single ticks in any order (R62). -/

namespace Sys2Proof.Machine

/-! ## Encoder -/

/-- The length of what an ENCODE that ends in BufferTooSmall leaves written: any number from 0 to the capacity (R107). Which
one is the free value of log entry 3 (DESIGN CHOICE). -/
def writtenOnFailure (cap draws : Nat) : Nat :=
  match cap with
  | 0 => 0
  | c + 1 => Config.prefixLen draws % (c + 2)

/-- ENCODE up to its loop (R105): the checks in the order of R167, then the capacity check of R107. -/
def beginEncode (s : State) : Result :=
  withValue s.core.vin fun v => withValue s.core.pos fun p => withValue s.core.len fun len =>
    withinRange s len
      (if capacity p len < encodedSize v then
        .next (setEngine { s with draws := s.draws + 1 } (.encoding
          { neg := isNegative v, m := magnitude v, k := 0, base := p,
            phase := .short (writtenOnFailure (capacity p len) s.draws) }))
      else
        .next (setEngine s (.encoding
          { neg := isNegative v, m := magnitude v, k := 0, base := p, phase := .writing })))

/-- Byte number `k` is written as a continuation byte and the magnitude is shifted (R105). -/
def writeContinuation (s : State) (e : EncState) (phase : EncPhase) : Result :=
  andThen (bufWrite s (e.base + e.k) (continuationByte e.m)) fun t =>
    .next (setEngine t (.encoding { e with m := shiftGroup e.m, k := e.k + 1, phase := phase }))

/-- Byte number `k` is written as the final byte (R105). -/
def writeFinal (s : State) (e : EncState) : Result :=
  andThen (bufWrite s (e.base + e.k) (finalByte e.neg e.m)) fun t =>
    .next (setEngine t (.encoding { e with k := e.k + 1, phase := .done }))

/-- One turn of a running ENCODE (R105, R107). -/
def encodeTick (e : EncState) (s : State) : Result :=
  match e.phase with
  | .writing => if fitsFinal e.m then writeFinal s e else writeContinuation s e .writing
  | .short 0 => .next (finishError .bufferTooSmall s)
  | .short (left + 1) => writeContinuation s e (.short left)
  | .done => .next (finishOk e.k none s)

/-! ## Decoder -/

/-- DECODE up to its loop (R130): the checks in the order of R167, then the initial state of R34. R34 gives `sign` no initial value: it
starts at 0, and nothing reads it before the final byte sets it (DESIGN CHOICE, log entry 19). -/
def beginDecode (s : State) : Result :=
  withValue s.core.pos fun p => withValue s.core.len fun len =>
    withinRange s len
      (.next (setEngine s (.decoding
        { phase := .accumulating, acc := 0#64, off := 0, k := 0, sign := false, base := p, limit := len })))

/-- R35 on a continuation byte: the group is placed at the offset, or the 10th byte ends the decoding as Overlong (R131,
R136). -/
def consumeContinuation (g7 : BitVec 7) (d : DecState) : DecState :=
  if d.k < 9 then
    { d with acc := d.acc ||| (g7.setWidth 64 <<< d.off), off := d.off + 7, k := d.k + 1 }
  else { d with phase := .failed .overlong }

/-- R35 on a final byte: the group is placed at the offset modulo 2^64 and the sign flag is kept (R132, R137). -/
def consumeFinal (sign : Bool) (g6 : BitVec 6) (d : DecState) : DecState :=
  { d with phase := .done, acc := d.acc ||| (g6.setWidth 64 <<< d.off), sign := sign, k := d.k + 1 }

/-- R35 on a byte just read: bit 7 alone decides its format (R70). -/
def consume (b : Byte) (d : DecState) : DecState :=
  if continuationFlag b then consumeContinuation (group7 b) d else consumeFinal (signFlag b) (group6 b) d

/-- The first transition of R35: the range ends before the byte. -/
def exhausted (d : DecState) : DecState := { d with phase := .failed .truncated }

/-- The value a finished decoding delivers (R133). -/
def decodedValue (d : DecState) : Word := if d.sign then neg64 d.acc else d.acc

/-- One turn of a running DECODE (R35, R130, R133). -/
def decodeTick (d : DecState) (s : State) : Result :=
  match d.phase with
  | .accumulating =>
    if d.limit ≤ d.base + d.k then .next (setEngine s (.decoding (exhausted d)))
    else bufRead s (d.base + d.k) fun b => .next (setEngine s (.decoding (consume b d)))
  | .done => .next (finishOk d.k (some (decodedValue d)) s)
  | .failed why => .next (finishError (failureStatus why) s)

/-- The transition of R35 that a wire byte of a known format makes, offered at the read cursor of the selected
instance. -/
def offerByte (s : State) (use : DecState → DecState) : Result :=
  match s.core.engine with
  | .idle => .fault .noTransition
  | .encoding _ => .fault .noTransition
  | .decoding d =>
    match d.phase with
    | .accumulating =>
      if d.limit ≤ d.base + d.k then .next (setEngine s (.decoding (exhausted d)))
      else .next (setEngine s (.decoding (use d)))
    | .done => .fault .noTransition
    | .failed _ => .fault .noTransition

/-! ## Both -/

/-- One turn of the command the selected instance runs: at most one buffer access. An idle instance does nothing. -/
def tick (s : State) : Result :=
  match s.core.engine with
  | .idle => .next s
  | .encoding e => encodeTick e s
  | .decoding d => decodeTick d s

/-- The most turns a command takes: at most 10 byte accesses (R200) and its `finish` (log entry 13). -/
def maxTicks : Nat := 11

/-- Run the command of the selected instance until it completes (R5). -/
def drain (turns : Nat) (s : State) : Result :=
  match turns with
  | 0 => .next s
  | n + 1 => if s.core.engine = .idle then .next s else andThen (tick s) (drain n)

end Sys2Proof.Machine
end

