-- ==== Sys2Proof/Machine/Decoder.lean ====
section
/-! DEFINITION. The decoder's command DECODE (41_decoder.md) and the two wire-byte rows: the transitions of the decoder's
state machine (R35) on a byte of either format. -/

namespace Sys2Proof.Machine

/-- DECODE (R130): decode one sequence from the buffer at POS, as one step (R5). -/
def execDecode (s : State) : Result :=
  whenIdle s fun t => andThen (beginDecode t) (drain maxTicks)

/-- A continuation byte at the read cursor of a running DECODE (R71, R35, R131, R136). -/
def execWireContinuation (g7 : BitVec 7) (s : State) : Result :=
  offerByte s (consumeContinuation g7)

/-- A final byte at the read cursor of a running DECODE (R72, R35, R132). -/
def execWireFinal (sign : Bool) (g6 : BitVec 6) (s : State) : Result :=
  offerByte s (consumeFinal sign g6)

end Sys2Proof.Machine
end

