-- ==== Sys2Proof/Machine/Encoder.lean ====
section
/-! DEFINITION. The encoder's commands ENCODE and SIZE (40_encoder.md). -/

namespace Sys2Proof.Machine

/-- ENCODE (R105): encode VIN into the buffer at POS, as one step (R5). -/
def execEncode (s : State) : Result :=
  whenIdle s fun t => andThen (beginEncode t) (drain maxTicks)

/-- SIZE (R109): the byte count ENCODE would write for VIN. It reads neither POS nor LEN nor the buffer (R83, D21). -/
def execSize (s : State) : Result :=
  whenIdle s fun t => withValue t.core.vin fun v => .next (finishOk (encodedSize v) none t)

end Sys2Proof.Machine
end

