-- ==== Sys2Proof/Machine/Reserved.lean ====
section
/-! DEFINITION. The reserved command words (R82, R165): they complete at once with IllegalCommand, read no operand register
and do not access the buffer. -/

namespace Sys2Proof.Machine

/-- What every reserved word does (R81: they all behave the same way). -/
def illegalCommand (s : State) : Result :=
  whenIdle s fun t => .next (finishError .illegalCommand t)

/-- CMD = 0x03 (R82). -/
def execReservedOp3 (s : State) : Result := illegalCommand s

/-- A word with CMD[7:2] ≠ 0 (R82). Neither field has an effect. -/
def execReservedRsvd (_rsvd : BitVec 6) (_op : BitVec 2) (s : State) : Result := illegalCommand s

end Sys2Proof.Machine
end

