-- ==== Sys2Proof/Machine/Dispatch.lean ====
section
/-! DEFINITION. One arm per row of the opcode table: what an instruction does to the selected instance and the
buffer. -/

namespace Sys2Proof.Machine

def exec (i : Instr) (s : State) : Host.Outcome State Fault Refusal :=
  match i with
  | .encode => Sys2Proof.Machine.execEncode s
  | .size => Sys2Proof.Machine.execSize s
  | .decode => Sys2Proof.Machine.execDecode s
  | .reservedOp3 => Sys2Proof.Machine.execReservedOp3 s
  | .reservedRsvd rsvd op => Sys2Proof.Machine.execReservedRsvd rsvd op s
  | .wireContinuation g7 => Sys2Proof.Machine.execWireContinuation g7 s
  | .wireFinal sign g6 => Sys2Proof.Machine.execWireFinal sign g6 s

end Sys2Proof.Machine
end

