-- ==== Sys2Proof/Machine/Events.lean ====
section
/-! DEFINITION. What the host does (R6, R195, R196) and how the running commands advance (R58, R62): everything the step
calls. -/

namespace Sys2Proof.Machine

/-! ## A running command -/

/-- The wire byte the selected instance's DECODE reads next: it is accumulating, the byte is inside the range (R135) and
the cell holds one. -/
def nextWireByte (s : State) : Option Byte :=
  match s.core.engine with
  | .idle => none
  | .encoding _ => none
  | .decoding d =>
    match d.phase with
    | .accumulating =>
      if d.base + d.k < d.limit ∧ d.base + d.k < 2 ^ s.addrBits then s.buf.read (d.base + d.k) else none
    | .done => none
    | .failed _ => none

/-- The selected instance's command makes its next access: a DECODE that reads a byte runs that byte's row, anything else is
a turn of the loop. -/
def advance (s : State) : Result :=
  match nextWireByte s with
  | some b => exec (decodeWire b) s
  | none => tick s

/-- `n` turns of the selected instance's command, with nothing in between. -/
def advanceTimes (n : Nat) (s : State) : Result :=
  match n with
  | 0 => .next s
  | m + 1 => andThen (advance s) (advanceTimes m)

/-- The command of instance `i` makes its next access. -/
def advanceAt (i : Nat) (s : State) : Result :=
  match select i s with
  | none => .refused .noSuchCodec
  | some t => advance t

/-! ## Commands -/

/-- The word in CMD is taken: CMD holds nothing afterwards (R22, R190). -/
def takeCommand (s : State) : State := { s with core := { s.core with cmd := none } }

/-- A command begins, its buffer accesses still to come (R58, R62). The rows without a buffer access complete at once. -/
def beginCommand (i : Instr) (s : State) : Result :=
  match i with
  | .encode => beginEncode s
  | .size => exec .size s
  | .decode => beginDecode s
  | .reservedOp3 => exec .reservedOp3 s
  | .reservedRsvd rsvd op => exec (.reservedRsvd rsvd op) s
  | .wireContinuation g7 => exec (.wireContinuation g7) s
  | .wireFinal sign g6 => exec (.wireFinal sign g6) s

/-! ## The host -/

/-- The value fits the register's width (R27, R195). -/
def ofWidth (bits v : Nat) (k : Result) : Result := if v < 2 ^ bits then k else .refused .valueTooWide

/-- The host writes a register of the selected instance (R21, R27, R28, R166). -/
def hostWrite (r : Reg) (v : Nat) (s : State) : Result :=
  match r with
  | .cmd => ofWidth 8 v (.next { s with core := { s.core with cmd := some (BitVec.ofNat 8 v) } })
  | .vin => ofWidth 64 v (.next { s with core := { s.core with vin := some (BitVec.ofNat 64 v) } })
  | .pos => ofWidth s.addrBits v (.next { s with core := { s.core with pos := some v } })
  | .len => ofWidth (s.addrBits + 1) v (.next { s with core := { s.core with len := some v } })
  | .status => .refused .notInterface
  | .count => .refused .notInterface
  | .vout => .refused .notInterface

/-- The host reads a register of the selected instance (R21, R166, R195). -/
def hostRead (r : Reg) (s : State) : Result :=
  match r with
  | .cmd => .refused .notInterface
  | .vin => .refused .operandRead
  | .pos => .refused .operandRead
  | .len => .refused .operandRead
  | .status => withValue s.core.status fun x => .next { s with answer := some (x.setWidth 64) }
  | .count => withValue s.core.count fun x => .next { s with answer := some (x.setWidth 64) }
  | .vout => withValue s.core.vout fun x => .next { s with answer := some x }

/-- The host reads a buffer cell (R10, R60, R201). -/
def hostPeek (a : Nat) (s : State) : Result :=
  bufRead s a fun b => .next { s with answer := some (b.setWidth 64) }

/-- The host uses instance `i` once it is idle; while it is busy its command advances and the host waits (R174, R195).
DESIGN CHOICE, log entry 7. -/
def onceIdle (i : Nat) (rest : List Event) (s : State) (k : State → Result) : Result :=
  match select i s with
  | none => .refused .noSuchCodec
  | some t => if t.core.engine = .idle then k { t with script := rest } else advance t

/-- The host goes on once no command runs; while one does, the first busy instance makes its next access and the event stays in
store. So a reset falls between commands (R190), and the host reads a buffer cell only between commands (R5, R60). DESIGN
CHOICE, log entries 7 and 18. -/
def onceAllIdle (rest : List Event) (s : State) (k : State → Result) : Result :=
  match firstBusy s with
  | some i => advanceAt i s
  | none => k { s with script := rest }

/-- One event of the script, `rest` what is behind it. -/
def runEvent (e : Event) (rest : List Event) (s : State) : Result :=
  match e with
  | .write i r v => onceIdle i rest s (hostWrite r v)
  | .start i w => onceIdle i rest s (beginCommand (decodeCommand w))
  | .advance i => advanceAt i { s with script := rest }
  | .poke a b => bufWrite { s with script := rest } a b
  | .read i r => onceIdle i rest s (hostRead r)
  | .peek a => onceAllIdle rest s (hostPeek a)
  | .reset => onceAllIdle rest s fun t => .next (resetAll t)

/-- With nothing in store a running command goes on, since it cannot block (R200); if none runs, nothing happens
(R191). DEDUCED, log entry 15. -/
def runOn (s : State) : Result :=
  match firstBusy s with
  | some i => advanceAt i s
  | none => .next s

/-- What the machine does next: take the command in CMD, else the next event, else go on with what runs. -/
def runNext (s : State) : Result :=
  match s.core.cmd with
  | some w => if s.core.engine = .idle then exec (decodeCommand w) (takeCommand s) else advance s
  | none =>
    match s.script with
    | e :: rest => runEvent e rest s
    | [] => runOn s

/-- `s` with a word in the selected instance's CMD register and that instance idle, so that the next step takes it. DESIGN
CHOICE, log entry 11. -/
def placeCommand (w : Byte) (s : State) : State :=
  { s with core := { s.core with cmd := some w, engine := .idle } }

end Sys2Proof.Machine
end

