-- ==== Sys2Proof/Machine/Script.lean ====
section
/-! DEFINITION. The host's command language (R84, R85): its lines, what each expands to, the register writes they are, and
their text. -/

namespace Sys2Proof.Machine

/-- A line of a host program: the forms of R84, then the pseudo-commands of R85. -/
inductive Line where
  /-- `SET VIN, <int>` -/
  | setVin (v : Int)
  /-- `SET POS, <nat>` -/
  | setPos (n : Nat)
  /-- `SET LEN, <nat>` -/
  | setLen (n : Nat)
  /-- `ENCODE` -/
  | encode
  /-- `SIZE` -/
  | size
  /-- `DECODE` -/
  | decode
  /-- `CMD <byte>` -/
  | cmd (w : Byte)
  /-- `POKE <nat>, <byte>` -/
  | poke (addr : Nat) (b : Byte)
  /-- `ENCODE <int>, <nat>` -/
  | encodeAt (v : Int) (n : Nat)
  /-- `SIZE <int>` -/
  | sizeValue (v : Int)
  /-- `DECODE <nat>` -/
  | decodeAt (n : Nat)
  /-- `POKES <nat>, <b0>, <b1>, ...` -/
  | pokes (addr : Nat) (bs : List Byte)
  deriving DecidableEq, Repr

/-- The lines `POKES` stands for (R85). -/
def expandPokes (addr : Nat) : List Byte → List Line
  | [] => []
  | b :: rest => .poke addr b :: expandPokes (addr + 1) rest

/-- A pseudo-command's expansion (R85); every other line stands for itself. -/
def expand : Line → List Line
  | .setVin v => [.setVin v]
  | .setPos n => [.setPos n]
  | .setLen n => [.setLen n]
  | .encode => [.encode]
  | .size => [.size]
  | .decode => [.decode]
  | .cmd w => [.cmd w]
  | .poke a b => [.poke a b]
  | .encodeAt v n => [.setVin v, .setPos n, .encode]
  | .sizeValue v => [.setVin v, .size]
  | .decodeAt n => [.setPos n, .decode]
  | .pokes a bs => expandPokes a bs

/-- The bounds R84 puts on a line's numbers: POS < 2^ADDR_BITS and LEN ≤ 2^ADDR_BITS; a POKE names a cell that exists. -/
def Line.wellFormed (addrBits : Nat) : Line → Bool
  | .setVin _ => true
  | .setPos n => decide (n < 2 ^ addrBits)
  | .setLen n => decide (n ≤ 2 ^ addrBits)
  | .encode => true
  | .size => true
  | .decode => true
  | .cmd _ => true
  | .poke a _ => decide (a < 2 ^ addrBits)
  | .encodeAt _ n => decide (n < 2 ^ addrBits)
  | .sizeValue _ => true
  | .decodeAt n => decide (n < 2 ^ addrBits)
  | .pokes a bs => decide (a + bs.length ≤ 2 ^ addrBits)

/-- The write a line is: "the encoding of a line is the register write it performs" (R84). A pseudo-command is the writes
of its expansion. -/
def lineEvents (codec : Nat) : Line → List Event
  | .setVin v => [.write codec .vin (BitVec.ofInt 64 v).toNat]
  | .setPos n => [.write codec .pos n]
  | .setLen n => [.write codec .len n]
  | .encode => [.write codec .cmd 0]
  | .size => [.write codec .cmd 1]
  | .decode => [.write codec .cmd 2]
  | .cmd w => [.write codec .cmd w.toNat]
  | .poke a b => [.poke a b]
  | .encodeAt v n => [.write codec .vin (BitVec.ofInt 64 v).toNat, .write codec .pos n, .write codec .cmd 0]
  | .sizeValue v => [.write codec .vin (BitVec.ofInt 64 v).toNat, .write codec .cmd 1]
  | .decodeAt n => [.write codec .pos n, .write codec .cmd 2]
  | .pokes a bs => bs.zipIdx.map (fun x => .poke (a + x.2) x.1)

/-- A host program for one instance is put behind what the host already has in store (R196). -/
def State.withProgram (s : State) (codec : Nat) (lines : List Line) : State :=
  { s with script := s.script ++ lines.flatMap (lineEvents codec) }

/-! ## The text of a line -/

/-- The part of a line before its comment (R84: `;` to end of line). -/
def dropComment (cs : List Char) : List Char := cs.takeWhile (fun c => c != ';')

/-- The words of a line: blanks, tabs and commas separate them (DESIGN CHOICE, log entry 14). -/
def words : List Char → List Char → List (List Char)
  | acc, [] => if acc = [] then [] else [acc.reverse]
  | acc, c :: cs =>
    if c = ' ' ∨ c = ',' ∨ c = '\t' then
      if acc = [] then words [] cs else acc.reverse :: words [] cs
    else words (c :: acc) cs

/-- The value of a digit, hexadecimal digits in either case. -/
def digitValue (c : Char) : Option Nat :=
  if '0'.toNat ≤ c.toNat ∧ c.toNat ≤ '9'.toNat then some (c.toNat - '0'.toNat)
  else if 'a'.toNat ≤ c.toNat ∧ c.toNat ≤ 'f'.toNat then some (c.toNat - 'a'.toNat + 10)
  else if 'A'.toNat ≤ c.toNat ∧ c.toNat ≤ 'F'.toNat then some (c.toNat - 'A'.toNat + 10)
  else none

/-- The number the digits after those worth `n` make, in a base. -/
def readDigits (base n : Nat) : List Char → Option Nat
  | [] => some n
  | c :: cs =>
    match digitValue c with
    | some d => if d < base then readDigits base (n * base + d) cs else none
    | none => none

/-- A `<nat>`: decimal, or hexadecimal after `0x`. -/
def readNat : List Char → Option Nat
  | [] => none
  | '0' :: 'x' :: [] => none
  | '0' :: 'x' :: cs => readDigits 16 0 cs
  | cs => readDigits 10 0 cs

/-- An `<int>`: decimal, optionally negative, or hexadecimal after `0x` (R84). -/
def readInt : List Char → Option Int
  | '-' :: c :: cs => (readDigits 10 0 (c :: cs)).map (fun n => -(n : Int))
  | cs => (readNat cs).map (fun n => (n : Int))

/-- A `<byte>`: a `<nat>` below 256. -/
def readByte (cs : List Char) : Option Byte :=
  match readNat cs with
  | some n => if n < 256 then some (BitVec.ofNat 8 n) else none
  | none => none

/-- All the `<byte>`s of a list of words. -/
def readBytes : List (List Char) → Option (List Byte)
  | [] => some []
  | w :: ws =>
    match readByte w, readBytes ws with
    | some b, some bs => some (b :: bs)
    | _, _ => none

/-- The line a list of words is, in the forms of R84 and R85. -/
def readWords : List (List Char) → Option Line
  | [['S', 'E', 'T'], ['V', 'I', 'N'], v] => (readInt v).map .setVin
  | [['S', 'E', 'T'], ['P', 'O', 'S'], n] => (readNat n).map .setPos
  | [['S', 'E', 'T'], ['L', 'E', 'N'], n] => (readNat n).map .setLen
  | [['E', 'N', 'C', 'O', 'D', 'E']] => some .encode
  | [['S', 'I', 'Z', 'E']] => some .size
  | [['D', 'E', 'C', 'O', 'D', 'E']] => some .decode
  | [['C', 'M', 'D'], w] => (readByte w).map .cmd
  | [['P', 'O', 'K', 'E'], a, b] =>
    match readNat a, readByte b with
    | some a, some b => some (.poke a b)
    | _, _ => none
  | [['E', 'N', 'C', 'O', 'D', 'E'], v, n] =>
    match readInt v, readNat n with
    | some v, some n => some (.encodeAt v n)
    | _, _ => none
  | [['S', 'I', 'Z', 'E'], v] => (readInt v).map .sizeValue
  | [['D', 'E', 'C', 'O', 'D', 'E'], n] => (readNat n).map .decodeAt
  | ['P', 'O', 'K', 'E', 'S'] :: a :: b :: bs =>
    match readNat a, readBytes (b :: bs) with
    | some a, some bs => some (.pokes a bs)
    | _, _ => none
  | _ => none

/-- The line a text is: `some none` for a blank or comment line, `none` where the text has none of the forms of R84 and
R85. -/
def readLine (cs : List Char) : Option (Option Line) :=
  match words [] (dropComment cs) with
  | [] => some none
  | ws => (readWords ws).map some

end Sys2Proof.Machine
end

