-- ==== Sys2Proof/Machine/Wire.lean ====
section
/-! DEFINITION. What a whole sequence of wire bytes stands for (R73 to R78): the closed forms that DECODE's loop is held
against. -/

namespace Sys2Proof.Machine

/-- The shape of R73: continuation bytes, then one final byte. -/
def terminated : List Byte → Bool
  | [] => false
  | [b] => !continuationFlag b
  | b :: rest => continuationFlag b && terminated rest

/-- An encoded sequence: terminated, of at most 10 bytes (R73). -/
def isSequence (bs : List Byte) : Bool := terminated bs && decide (bs.length ≤ 10)

/-- The sum of R74 over the bytes from number `i` on. -/
def magnitudeFrom (i : Nat) : List Byte → Nat
  | [] => 0
  | [b] => (group6 b).toNat * 2 ^ (7 * i)
  | b :: rest => (group7 b).toNat * 2 ^ (7 * i) + magnitudeFrom (i + 1) rest

/-- `M` of R74: the carried magnitude, a natural number. -/
def carriedMagnitude (bs : List Byte) : Nat := magnitudeFrom 0 bs

/-- `S` of R75: the sign flag of the final byte. -/
def carriedSign (bs : List Byte) : Bool := (bs.getLast?.map signFlag).getD false

/-- The 64-bit pattern a sequence stands for (R74, R75). -/
def carriedValue (bs : List Byte) : Word :=
  if carriedSign bs then neg64 (BitVec.ofNat 64 (carriedMagnitude bs)) else BitVec.ofNat 64 (carriedMagnitude bs)

/-- The canonical sequences of R77: those ENCODE can produce. -/
def canonical (bs : List Byte) : Bool :=
  isSequence bs
  && decide (carriedMagnitude bs < 2 ^ 64)
  && (decide (bs.length = 1) || decide (2 ^ (7 * bs.length - 8) ≤ carriedMagnitude bs))
  && (if carriedSign bs then decide (1 ≤ carriedMagnitude bs) && decide (carriedMagnitude bs ≤ 2 ^ 63)
      else decide (carriedMagnitude bs ≤ 2 ^ 63 - 1))

end Sys2Proof.Machine
end

