-- ==== Sys2Proof/Machine/Run.lean ====
section
/-! DEFINITION. How a run ends: the record of R166 and what is observed then (R201). -/

namespace Sys2Proof.Machine

/-- Put a fault or refusal on record; a record once made is never cleared (R166). -/
def recordStop (x : Stop) (s : State) : State :=
  { s with record := match s.record with | some old => some old | none => some x }

/-- The state after a step as R166 has it: a fault or refusal is recorded, and nothing else changes. DEDUCED,
log entry 10. -/
def settle (s : State) : State :=
  match step s with
  | .next t => t
  | .fault f => recordStop (.fault f) s
  | .refused r => recordStop (.refusal r) s

/-- `n` steps, with the record. -/
def runRecorded : Nat → State → State
  | 0, s => s
  | n + 1, s => runRecorded n (settle s)

/-- Running commands make their next accesses in the order `turns` lists the instances (R62). -/
def runTurns (turns : List Nat) (s : State) : Result :=
  match turns with
  | [] => .next s
  | i :: rest => andThen (advanceAt i s) (runTurns rest)

/-- What is observed of an instance: STATUS, COUNT and VOUT (R201). -/
def Codec.results (c : Codec) : Option (BitVec 3) × Option (BitVec 4) × Option Word := (c.status, c.count, c.vout)

/-- What is observed at the end of a run: the results of each instance, and BUF (R201). -/
def State.observed (s : State) : List (Option (BitVec 3) × Option (BitVec 4) × Option Word) × Memory :=
  (s.codecs.map Codec.results, s.buf)

end Sys2Proof.Machine
end

