-- ==== Sys2Proof/Safety.lean ====
section
/-! DEFINITION. What holds of every reachable state, when running commands may race, and which ends of a run are good. -/

namespace Sys2Proof.Machine

/-! ## The invariant -/

/-- A running ENCODE stays inside the buffer and writes at most 10 bytes (R55, R56, R104, R107). -/
def EncState.Wf (addrBits : Nat) (e : EncState) : Prop :=
  match e.phase with
  | .writing => e.base + e.k + sizeOfMagnitude e.m ≤ 2 ^ addrBits ∧ e.k + sizeOfMagnitude e.m ≤ 10
  | .short left => e.base + e.k + left ≤ 2 ^ addrBits ∧ e.k + left ≤ 9
  | .done => 1 ≤ e.k ∧ e.k ≤ 10

/-- The invariant of R34, `off = 7·k` while ACCUMULATING, and the bounds on `k` and on the range. -/
def DecState.Wf (addrBits : Nat) (d : DecState) : Prop :=
  d.limit ≤ 2 ^ addrBits ∧
  match d.phase with
  | .accumulating => d.off = 7 * d.k ∧ d.k ≤ 9
  | .done => 1 ≤ d.k ∧ d.k ≤ 10
  | .failed _ => d.k ≤ 9

/-- The internal state of an instance is one its command can be in. -/
def Engine.Wf (addrBits : Nat) : Engine → Prop
  | .idle => True
  | .encoding e => e.Wf addrBits
  | .decoding d => d.Wf addrBits

/-- What holds of an instance: POS and LEN have their widths (R27); STATUS is none of the reserved codes (R23); COUNT is
1..10 exactly when STATUS is OK (R24); VOUT holds a value only when STATUS is OK (R26). -/
structure Codec.Wf (addrBits : Nat) (c : Codec) : Prop where
  pos_width : ∀ p, c.pos = some p → p < 2 ^ addrBits
  len_width : ∀ n, c.len = some n → n < 2 ^ (addrBits + 1)
  status_code : ∀ x, c.status = some x → x.toNat ≤ 4
  count_range : ∀ n, c.count = some n → c.status = some (statusCode .ok) ∧ 1 ≤ n.toNat ∧ n.toNat ≤ 10
  count_of_ok : c.status = some (statusCode .ok) → c.count ≠ none
  vout_of_ok : ∀ v, c.vout = some v → c.status = some (statusCode .ok)
  engine : c.engine.Wf addrBits

/-- The invariant of the machine: the buffer is in its canonical form and inside the address space (R29, R50), and every
instance is as it should be. -/
structure State.Inv (s : State) : Prop where
  buf_wf : Memory.wf s.buf
  buf_range : ∀ x ∈ s.buf, x.1 < 2 ^ s.addrBits
  codecs : ∀ c ∈ s.codecs, c.Wf s.addrBits

/-! ## Progress -/

/-- How many turns a running command still takes at most (R104, R200). -/
def Engine.turnsLeft : Engine → Nat
  | .idle => 0
  | .encoding e =>
    match e.phase with
    | .writing => sizeOfMagnitude e.m + 1
    | .short left => left + 1
    | .done => 1
  | .decoding d =>
    match d.phase with
    | .accumulating => 11 - d.k
    | .done => 1
    | .failed _ => 1

/-! ## Access sets

R56 and R57 give the addresses a command accesses from its first byte to its last, and a race is a matter of these whole sets (R62,
R195, R198). What is still to come of them is the part a running command's later accesses depend on. -/

/-- The addresses a running command still writes (R56). -/
def Engine.mayWrite (eng : Engine) (a : Nat) : Prop :=
  match eng with
  | .idle => False
  | .encoding e =>
    match e.phase with
    | .writing => e.base + e.k ≤ a ∧ a < e.base + e.k + sizeOfMagnitude e.m
    | .short left => e.base + e.k ≤ a ∧ a < e.base + e.k + left
    | .done => False
  | .decoding _ => False

/-- The addresses a running command still reads, given the bytes in the buffer (R57): from its read cursor on, below LEN, at most 10
bytes from POS on, and none behind the first byte that is not a continuation byte. -/
def Engine.mayRead (eng : Engine) (m : Memory) (a : Nat) : Prop :=
  match eng with
  | .idle => False
  | .encoding _ => False
  | .decoding d =>
    match d.phase with
    | .accumulating => d.base + d.k ≤ a ∧ a < d.limit ∧ a < d.base + 10 ∧
      ∀ x, d.base + d.k ≤ x → x < a → ∃ b, m.read x = some b ∧ continuationFlag b = true
    | .done => False
    | .failed _ => False

/-- The bytes a running ENCODE has written. -/
def Engine.written (eng : Engine) (a : Nat) : Prop :=
  match eng with
  | .idle => False
  | .encoding e => e.base ≤ a ∧ a < e.base + e.k
  | .decoding _ => False

/-- How many bytes a DECODE has read: those consumed, and on Overlong the tenth, which is read and not consumed (R57). -/
def DecState.bytesRead (d : DecState) : Nat :=
  match d.phase with
  | .accumulating => d.k
  | .done => d.k
  | .failed .truncated => d.k
  | .failed .overlong => d.k + 1

/-- The bytes a running DECODE has read. -/
def Engine.hasRead (eng : Engine) (a : Nat) : Prop :=
  match eng with
  | .idle => False
  | .encoding _ => False
  | .decoding d => d.base ≤ a ∧ a < d.base + d.bytesRead

/-- The addresses a running command writes, from its first byte to its last (R56). -/
def Engine.writeSet (eng : Engine) (a : Nat) : Prop := eng.written a ∨ eng.mayWrite a

/-- The addresses a running command reads, from its first byte to its last (R57). -/
def Engine.readSet (eng : Engine) (m : Memory) (a : Nat) : Prop := eng.hasRead a ∨ eng.mayRead m a

/-! ## Races -/

/-- Two running commands do not race: neither writes a byte of the other's access set (R61, R62, R198). -/
def Engine.Disjoint (m : Memory) (x y : Engine) : Prop :=
  ∀ a, (x.writeSet a → ¬ y.writeSet a ∧ ¬ y.readSet m a) ∧ (y.writeSet a → ¬ x.readSet m a)

/-- No two instances' commands race (R61, R62, R198). -/
def State.RaceFree (s : State) : Prop :=
  ∀ (i j : Nat) (c d : Codec), i ≠ j → s.codecs[i]? = some c → s.codecs[j]? = some d → c.engine.Disjoint s.buf d.engine

/-- The host's POKE of cell `a` is no race: the cell is in no running command's access set (R62, R195). -/
def State.PokeSafe (s : State) (a : Nat) : Prop :=
  ∀ c ∈ s.codecs, ¬ c.engine.writeSet a ∧ ¬ c.engine.readSet s.buf a

/-- The command word `w` given to the selected instance is no race: once begun, no two commands race (R62, R198). A command that runs as
one step while another instance's is running is held to the same. -/
def State.CommandSafe (s : State) (w : Byte) : Prop :=
  ∀ t, beginCommand (decodeCommand w) s = .next t → t.RaceFree

/-- What two running commands still access is disjoint. This asks less than `Engine.Disjoint`, and it is enough for their later accesses
not to disturb each other. -/
def Engine.DisjointAhead (m : Memory) (x y : Engine) : Prop :=
  ∀ a, (x.mayWrite a → ¬ y.mayWrite a ∧ ¬ y.mayRead m a) ∧ (y.mayWrite a → ¬ x.mayRead m a)

/-- What any two running commands still access is disjoint. -/
def State.DisjointAhead (s : State) : Prop :=
  ∀ (i j : Nat) (c d : Codec), i ≠ j → s.codecs[i]? = some c → s.codecs[j]? = some d →
    c.engine.DisjointAhead s.buf d.engine

/-! ## Events -/

/-- The instance an event names, if it names one (R174). -/
def Event.names : Event → Option Nat
  | .write i _ _ => some i
  | .start i _ => some i
  | .advance i => some i
  | .read i _ => some i
  | .poke _ _ => none
  | .peek _ => none
  | .reset => none

/-! ## The end of a run -/

/-- A run has ended well when it has ended and the record is empty (R201). R201 does not say when a run has ended: here it has when the host
has nothing in store, no CMD holds a word and no command runs (DESIGN CHOICE, log entry 20). -/
def State.EndedWell (s : State) : Prop :=
  s.script = [] ∧ (∀ c ∈ s.codecs, c.cmd = none) ∧ firstBusy s = none ∧ s.record = none

end Sys2Proof.Machine
end

