-- ==== Sys2Proof/Certificates/Slice0/Obligations.lean ====
section
/-! DEFINITION. The statements for the provers. Each docstring names the rules of spec/ it formalises. `none` in a register
or a cell is the spec's ⊥ (R10). -/

open Sys2Proof Sys2Proof.Machine

/-! ## Encodings -/

/-- Words written out from the tables of R81, R71 and R72 decode to the instructions they stand for. -/
def Obligations.SpecWordsDecode : Prop :=
  decodeCommand 0x00#8 = .encode ∧ decodeCommand 0x01#8 = .size ∧ decodeCommand 0x02#8 = .decode ∧
  decodeCommand 0x03#8 = .reservedOp3 ∧ decodeCommand 0x06#8 = .reservedRsvd 1#6 2#2 ∧
  decodeWire 0xC0#8 = .wireContinuation 0x40#7 ∧ decodeWire 0x41#8 = .wireFinal true 0x01#6

/-- CMD8 (R80 to R82): every well-formed command decodes from its own word, and every one of the 256 words is the word of the
well-formed command it decodes to. -/
def Obligations.CommandWordsRoundTrip : Prop :=
  (∀ i : Instr, i.isCommand = true → i.wellFormed = true → decodeCommand (encode i) = i) ∧
  (∀ w : Byte, encode (decodeCommand w) = w ∧ (decodeCommand w).isCommand = true ∧
    (decodeCommand w).wellFormed = true)

/-- WIRE8 (R70 to R72): the same of the wire bytes, all 256 of them. -/
def Obligations.WireBytesRoundTrip : Prop :=
  (∀ i : Instr, i.isCommand = false → decodeWire (encode i) = i) ∧
  (∀ b : Byte, encode (decodeWire b) = b ∧ (decodeWire b).isCommand = false)

/-! ## The step -/

/-- A word in CMD of the selected, idle instance is taken and run by the next step, CMD holding nothing afterwards (R5, R22). That
CMD keeps the word until that step is the model's choice, log entry 4. -/
def Obligations.StepRunsCommandWord : Prop :=
  ∀ (s : State) (w : Byte) (i : Instr), s.core.cmd = some w → s.core.engine = .idle → decodeCommand w = i →
    step s = exec i { s with core := { s.core with cmd := none } }

/-- A word placed by `withFetchWord` is run by the very next step, whatever the state (R22, R81). How a word is placed is the model's
choice, log entry 11. -/
def Obligations.PlacedWordRunsNext : Prop :=
  ∀ (s : State) (nbits w : Nat) (i : Instr), decodeTableWord nbits w = some i →
    step (s.withFetchWord nbits w) = exec i { s with core := { s.core with cmd := none, engine := .idle } }

/-- A byte that the running DECODE of instance `i` reads is run by its row of the table (R35, R70). The schedule that says which
instance moves is the model's choice, log entry 6. -/
def Obligations.StepRunsWireByte : Prop :=
  ∀ (s t : State) (i : Nat) (rest : List Event) (d : DecState) (b : Byte),
    s.core.cmd = none → s.script = .advance i :: rest → select i { s with script := rest } = some t →
    t.core.engine = .decoding d → d.phase = .accumulating → d.base + d.k < d.limit →
    d.base + d.k < 2 ^ s.addrBits → s.buf.read (d.base + d.k) = some b →
    step s = exec (decodeWire b) t

/-- Running the row of each byte read is the same as the turns of DECODE's own loop (R35, R130). -/
def Obligations.AdvanceIsOneTurn : Prop := ∀ s : State, advance s = tick s

/-- A command that is one step gives what the same command gives one access at a time with nothing in between (R5, R58): state, fault
and refusal alike. That its completion is the eleventh turn at the latest is log entry 13 (DEDUCED). -/
def Obligations.CommandIsItsTurns : Prop :=
  ∀ s : State, s.core.engine = .idle →
    exec .encode s = andThen (beginCommand .encode s) (advanceTimes 11) ∧
    exec .decode s = andThen (beginCommand .decode s) (advanceTimes 11)

/-! ## SIZE -/

/-- SIZE completes whenever VIN holds a value, whatever POS and LEN hold: STATUS = OK, COUNT = size_of(VIN), VOUT = ⊥, nothing else
changes (R109). -/
def Obligations.SizeResult : Prop :=
  ∀ (s : State) (v : Word), s.core.engine = .idle → s.core.vin = some v →
    exec .size s = .next { s with core := { s.core with
      status := some 0#3, count := some (BitVec.ofNat 4 (encodedSize v)), vout := none } } ∧
    (BitVec.ofNat 4 (encodedSize v)).toNat = encodedSize v

/-- A magnitude takes n bytes exactly when it is in row n of the table of R76. The spec marks this law as derived, an inference of its own. -/
def Obligations.SizeAgainstMagnitude : Prop :=
  ∀ (v : Word) (n : Nat), 1 ≤ n → n ≤ 10 →
    (encodedSize v = n ↔
      (magnitude v).toNat < 2 ^ (7 * n - 1) ∧ (1 < n → 2 ^ (7 * n - 8) ≤ (magnitude v).toNat))

/-- The closed form of R103: ceil((bitlen + 1) / 7). The spec marks this law as derived, an inference of its own. -/
def Obligations.SizeClosedForm : Prop :=
  ∀ v : Word, encodedSize v = (Nat.size (magnitude v).toNat + 1 + 6) / 7

/-- R104: the loop of R103 needs no more than 10 turns, the count is 1 to 10, and 10 is reached exactly from magnitude 2^62 on. -/
def Obligations.SizeRange : Prop :=
  ∀ v : Word, 1 ≤ encodedSize v ∧ encodedSize v ≤ 10 ∧ (encodedSize v = 10 ↔ 2 ^ 62 ≤ (magnitude v).toNat) ∧
    (∀ extra : Nat, sizeLoop (10 + extra) (magnitude v) 1 = encodedSize v)

/-- R111: the size is sign-symmetric, because the magnitude is. The spec marks this law as derived, an inference of its own. -/
def Obligations.SizeSignSymmetric : Prop :=
  ∀ v : Word, magnitude (neg64 v) = magnitude v ∧ encodedSize v = encodedSize (neg64 v)

/-- R100, R9: the magnitude is the absolute value of the signed reading, and 2^63 for INT64_MIN, whose negation wraps to itself. -/
def Obligations.MagnitudeIsAbsoluteValue : Prop :=
  (∀ v : Word, (magnitude v).toNat = v.toInt.natAbs) ∧ neg64 int64Min = int64Min ∧ neg64 0#64 = 0#64

/-! ## ENCODE -/

/-- ENCODE with room for the whole encoding completes with STATUS = OK: the bytes of R106 stand at POS and on, COUNT is their number,
VOUT is ⊥, and nothing else changes (R105; R106, whose closed form the spec marks as
derived). -/
def Obligations.EncodeResult : Prop :=
  ∀ (s : State) (v : Word) (p len : Nat), s.core.engine = .idle → s.core.vin = some v → s.core.pos = some p →
    s.core.len = some len → len ≤ 2 ^ s.addrBits → p + encodedSize v ≤ len →
    exec .encode s = .next { s with
      buf := s.buf.writeBytes p (encodedBytes v)
      core := { s.core with status := some 0#3, count := some (BitVec.ofNat 4 (encodedSize v)), vout := none } } ∧
    (encodedBytes v).length = encodedSize v ∧
    ∀ k, k < encodedSize v → (s.buf.writeBytes p (encodedBytes v)).read (p + k) = some (encodedByte v k)

/-- ENCODE without that room completes with STATUS = BufferTooSmall, COUNT = VOUT = ⊥, and the first bytes of the encoding written:
some number of them from 0 to the capacity, none where the capacity is 0 (R107, R162). Which number is the free value of log entry
3: the statement holds for every value of `Config.prefixLen`. -/
def Obligations.EncodeBufferTooSmall : Prop :=
  ∀ (s : State) (v : Word) (p len : Nat), s.core.engine = .idle → s.core.vin = some v → s.core.pos = some p →
    s.core.len = some len → len ≤ 2 ^ s.addrBits → capacity p len < encodedSize v →
    ∃ n, n ≤ capacity p len ∧ n = writtenOnFailure (capacity p len) s.draws ∧
      exec .encode s = .next { s with
        buf := s.buf.writeBytes p ((encodedBytes v).take n)
        draws := s.draws + 1
        core := { s.core with status := some 1#3, count := none, vout := none } }

/-- The frame of ENCODE, on success and on BufferTooSmall (R28, R56, R108): VIN, POS, LEN, CMD, the other instances and the host's side are
unchanged, and so is every byte outside the first min(size_of(VIN), capacity) bytes from POS on. -/
def Obligations.EncodeFrame : Prop :=
  ∀ (s t : State) (v : Word) (p len : Nat), s.core.vin = some v → s.core.pos = some p → s.core.len = some len →
    exec .encode s = .next t →
    t.core.vin = s.core.vin ∧ t.core.pos = s.core.pos ∧ t.core.len = s.core.len ∧ t.core.cmd = s.core.cmd ∧
    t.before = s.before ∧ t.after = s.after ∧ t.addrBits = s.addrBits ∧ t.script = s.script ∧
    t.answer = s.answer ∧ t.record = s.record ∧
    ∀ a, a < p ∨ p + min (encodedSize v) (capacity p len) ≤ a → t.buf.read a = s.buf.read a

/-- R110: a successful ENCODE of a value and a SIZE of it give the same COUNT, size_of of the value. -/
def Obligations.SizeAndEncodeAgree : Prop :=
  ∀ (s t u : State) (v : Word), s.core.vin = some v → exec .encode s = .next t → t.core.status = some 0#3 →
    exec .size s = .next u →
    t.core.count = some (BitVec.ofNat 4 (encodedSize v)) ∧ u.core.count = t.core.count

/-- R112: the encodings of a value and of its negation have the same length and differ only in bit 6 of the final byte; for 0 and INT64_MIN
they are equal. The spec marks this law as derived, an inference of its own. -/
def Obligations.NegationFlipsSignFlag : Prop :=
  (∀ v : Word, v ≠ 0#64 → v ≠ int64Min →
    (encodedBytes (neg64 v)).length = (encodedBytes v).length ∧
    encodedBytes (neg64 v) = (encodedBytes v).dropLast ++
      ((encodedBytes v).getLast?.map (fun b => b ^^^ 0x40#8)).toList) ∧
  encodedBytes (neg64 0#64) = encodedBytes 0#64 ∧ encodedBytes (neg64 int64Min) = encodedBytes int64Min

/-- R114: whatever a successful ENCODE has written is a canonical sequence (R77), so it is no negative zero, has no padding group, no excess
bit in a tenth byte and no positive magnitude of 2^63 or more. The spec marks this law as derived, an inference of its own. -/
def Obligations.EncodeEmitsCanonical : Prop :=
  ∀ (s t : State) (v : Word) (p : Nat), s.core.vin = some v → s.core.pos = some p → exec .encode s = .next t →
    t.core.status = some 0#3 →
    ∃ bs : List Byte, bs.length = encodedSize v ∧ (∀ k, k < bs.length → t.buf.read (p + k) = bs[k]?) ∧
      canonical bs = true

/-! ## DECODE -/

/-- DECODE of a terminated sequence of at most 10 bytes that ends below LEN completes with STATUS = OK, COUNT the number of its bytes and VOUT
the value of the closed form of R74 and R75, canonical or not; nothing else changes (R130, R133, R134, R137, R138, R140). -/
def Obligations.DecodeResult : Prop :=
  ∀ (s : State) (p len : Nat) (bs : List Byte), s.core.engine = .idle → s.core.pos = some p →
    s.core.len = some len → len ≤ 2 ^ s.addrBits → isSequence bs = true → p + bs.length ≤ len →
    (∀ k, k < bs.length → s.buf.read (p + k) = bs[k]?) →
    exec .decode s = .next { s with core := { s.core with
      status := some 0#3, count := some (BitVec.ofNat 4 bs.length), vout := some (carriedValue bs) } }

/-- R135, R163: where LEN is reached behind k ≤ 9 continuation bytes (none when POS ≥ LEN), DECODE completes with
TruncatedEncoding, COUNT = VOUT = ⊥, nothing else changed. -/
def Obligations.DecodeTruncated : Prop :=
  ∀ (s : State) (p len k : Nat), s.core.engine = .idle → s.core.pos = some p → s.core.len = some len →
    len ≤ 2 ^ s.addrBits → k ≤ 9 → len ≤ p + k →
    (∀ i, i < k → p + i < len ∧ ∃ b : Byte, s.buf.read (p + i) = some b ∧ b.getLsbD 7 = true) →
    exec .decode s = .next { s with core := { s.core with status := some 2#3, count := none, vout := none } }

/-- R136, R164: ten continuation bytes below LEN make DECODE complete with Overlong, COUNT = VOUT = ⊥, nothing else changed. -/
def Obligations.DecodeOverlong : Prop :=
  ∀ (s : State) (p len : Nat), s.core.engine = .idle → s.core.pos = some p → s.core.len = some len →
    len ≤ 2 ^ s.addrBits →
    (∀ i, i < 10 → p + i < len ∧ ∃ b : Byte, s.buf.read (p + i) = some b ∧ b.getLsbD 7 = true) →
    exec .decode s = .next { s with core := { s.core with status := some 3#3, count := none, vout := none } }

/-- R51, R167: where the byte behind k ≤ 9 continuation bytes is below LEN and its cell holds ⊥, DECODE is `fault(Unwritten)`. -/
def Obligations.DecodeUnwrittenCell : Prop :=
  ∀ (s : State) (p len k : Nat), s.core.engine = .idle → s.core.pos = some p → s.core.len = some len →
    len ≤ 2 ^ s.addrBits → k ≤ 9 → p + k < len → s.buf.read (p + k) = none →
    (∀ i, i < k → ∃ b : Byte, s.buf.read (p + i) = some b ∧ b.getLsbD 7 = true) →
    exec .decode s = .fault .unwritten

/-- Round trip (R139): behind a successful ENCODE of v at p, and in any state whose bytes p .. p+n−1 are those it left, DECODE at p with any
LEN ≥ p + n gives STATUS = OK, VOUT = v and COUNT = n = size_of(v). The spec marks this law as derived, an inference of its own. -/
def Obligations.DecodeInvertsEncode : Prop :=
  ∀ (s t u : State) (v : Word) (p len : Nat), s.core.vin = some v → s.core.pos = some p →
    exec .encode s = .next t → t.core.status = some 0#3 →
    u.core.engine = .idle → u.core.pos = some p → u.core.len = some len → p + encodedSize v ≤ len →
    len ≤ 2 ^ u.addrBits → (∀ k, k < encodedSize v → u.buf.read (p + k) = t.buf.read (p + k)) →
    exec .decode u = .next { u with core := { u.core with
      status := some 0#3, count := some (BitVec.ofNat 4 (encodedSize v)), vout := some v } }

/-- R77: among the terminated sequences of at most 10 bytes, the canonical ones are exactly those ENCODE produces, and exactly those that
ENCODE of their decoded value reproduces. The spec marks this law as derived, an inference of its own. -/
def Obligations.CanonicalAreTheEncodings : Prop :=
  ∀ bs : List Byte, isSequence bs = true →
    (canonical bs = true ↔ ∃ v : Word, encodedBytes v = bs) ∧
    (canonical bs = true ↔ encodedBytes (carriedValue bs) = bs)

/-- R59: repeating a DECODE changes nothing, and repeating a successful ENCODE writes the same bytes again. -/
def Obligations.RepetitionChangesNothing : Prop :=
  (∀ s t : State, exec .decode s = .next t → exec .decode t = .next t) ∧
  (∀ s t : State, Memory.wf s.buf → exec .encode s = .next t → t.core.status = some 0#3 →
    exec .encode t = .next t)

/-! ## The wire bytes -/

/-- A continuation byte offered to a DECODE that accumulates inside its range, with k < 9: its group goes to the offset, which grows by 7
(R71, R131). -/
def Obligations.WireContinuationAccumulates : Prop :=
  ∀ (s : State) (d : DecState) (g7 : BitVec 7), s.core.engine = .decoding d → d.phase = .accumulating →
    d.base + d.k < d.limit → d.k < 9 →
    exec (.wireContinuation g7) s = .next { s with core := { s.core with engine := .decoding { d with
      acc := d.acc ||| (g7.setWidth 64 <<< d.off), off := d.off + 7, k := d.k + 1 } } }

/-- As the tenth byte (k = 9) a continuation byte takes the decoder to FAILED(Overlong) (R35, R136). -/
def Obligations.WireContinuationOverlong : Prop :=
  ∀ (s : State) (d : DecState) (g7 : BitVec 7), s.core.engine = .decoding d → d.phase = .accumulating →
    d.base + d.k < d.limit → d.k = 9 →
    exec (.wireContinuation g7) s = .next { s with core := { s.core with engine := .decoding { d with
      phase := .failed .overlong } } }

/-- A final byte offered to a DECODE that accumulates inside its range: its group goes to the offset modulo 2^64, its sign flag is kept, and
the decoder is DONE (R72, R132). -/
def Obligations.WireFinalFinishes : Prop :=
  ∀ (s : State) (d : DecState) (sign : Bool) (g6 : BitVec 6), s.core.engine = .decoding d →
    d.phase = .accumulating → d.base + d.k < d.limit →
    exec (.wireFinal sign g6) s = .next { s with core := { s.core with engine := .decoding { d with
      phase := .done, acc := d.acc ||| (g6.setWidth 64 <<< d.off), sign := sign, k := d.k + 1 } } }

/-- Where the range ends before the byte, either row takes the decoder to FAILED(TruncatedEncoding); where no DECODE accumulates, either row is
stuck (R35, R65, R135), under a name that log entry 17 deduces. -/
def Obligations.WireByteElsewhere : Prop :=
  ∀ (s : State) (g7 : BitVec 7) (sign : Bool) (g6 : BitVec 6),
    (∀ d : DecState, s.core.engine = .decoding d → d.phase = .accumulating → d.limit ≤ d.base + d.k →
      exec (.wireContinuation g7) s = .next { s with core := { s.core with engine := .decoding { d with
        phase := .failed .truncated } } } ∧
      exec (.wireFinal sign g6) s = .next { s with core := { s.core with engine := .decoding { d with
        phase := .failed .truncated } } }) ∧
    ((∀ d : DecState, s.core.engine = .decoding d → d.phase ≠ .accumulating) →
      exec (.wireContinuation g7) s = .fault .noTransition ∧
      exec (.wireFinal sign g6) s = .fault .noTransition)

/-- The decoder's transitions (R35), as the running DECODE of the selected instance makes them: the first that applies is taken, and from DONE
and FAILED the only step left is the command's own completion. That the completion is a turn of its own is the model's, log entry
13 (DEDUCED). -/
def Obligations.DecoderStateMachine : Prop :=
  ∀ (s : State) (d : DecState), s.core.engine = .decoding d → d.Wf s.addrBits →
    (d.phase = .accumulating → d.limit ≤ d.base + d.k →
      advance s = .next { s with core := { s.core with engine := .decoding { d with
        phase := .failed .truncated } } }) ∧
    (∀ b : Byte, d.phase = .accumulating → d.base + d.k < d.limit → s.buf.read (d.base + d.k) = some b →
      (b.getLsbD 7 = true → d.k = 9 →
        advance s = .next { s with core := { s.core with engine := .decoding { d with
          phase := .failed .overlong } } }) ∧
      (b.getLsbD 7 = true → d.k < 9 →
        advance s = .next { s with core := { s.core with engine := .decoding { d with
          acc := d.acc ||| ((b.extractLsb' 0 7).setWidth 64 <<< d.off), off := d.off + 7, k := d.k + 1 } } }) ∧
      (b.getLsbD 7 = false →
        advance s = .next { s with core := { s.core with engine := .decoding { d with
          phase := .done, acc := d.acc ||| ((b.extractLsb' 0 6).setWidth 64 <<< d.off), sign := b.getLsbD 6,
          k := d.k + 1 } } })) ∧
    (d.phase = .done →
      advance s = .next { s with core := { s.core with
        status := some 0#3, count := some (BitVec.ofNat 4 d.k),
        vout := some (if d.sign then neg64 d.acc else d.acc), engine := .idle } }) ∧
    (d.phase = .failed .truncated →
      advance s = .next { s with core := { s.core with
        status := some 2#3, count := none, vout := none, engine := .idle } }) ∧
    (d.phase = .failed .overlong →
      advance s = .next { s with core := { s.core with
        status := some 3#3, count := none, vout := none, engine := .idle } })

/-! ## Reserved words, checks and frames -/

/-- R82: CMD = 0x03, or any word with CMD[7:2] ≠ 0, completes at once with IllegalCommand, COUNT = VOUT = ⊥, whatever the operand registers and
the buffer hold, and nothing else changes. -/
def Obligations.ReservedWordsAreIllegal : Prop :=
  ∀ s : State, s.core.engine = .idle →
    (∀ w : Byte, w = 0x03#8 ∨ w.extractLsb' 2 6 ≠ 0#6 →
      exec (decodeCommand w) s = .next { s with core := { s.core with
        status := some 4#3, count := none, vout := none } }) ∧
    exec .reservedOp3 s = .next { s with core := { s.core with status := some 4#3, count := none, vout := none } } ∧
    (∀ (rsvd : BitVec 6) (op : BitVec 2), exec (.reservedRsvd rsvd op) s = .next { s with core := { s.core with
      status := some 4#3, count := none, vout := none } })

/-- R166, R167: a command that reads an operand register that holds ⊥ is `fault(Unwritten)`, before the LEN check and before any buffer
access. -/
def Obligations.UnwrittenOperandFaults : Prop :=
  ∀ s : State, s.core.engine = .idle →
    (s.core.vin = none ∨ s.core.pos = none ∨ s.core.len = none → exec .encode s = .fault .unwritten) ∧
    (s.core.vin = none → exec .size s = .fault .unwritten) ∧
    (s.core.pos = none ∨ s.core.len = none → exec .decode s = .fault .unwritten)

/-- R166, R167: a command that reads LEN > 2^ADDR_BITS, its operand registers all written, is `refuse(LenRange)`. -/
def Obligations.LenBeyondBufferRefused : Prop :=
  ∀ (s : State) (p len : Nat), s.core.engine = .idle → s.core.pos = some p → s.core.len = some len →
    2 ^ s.addrBits < len →
    (∀ v : Word, s.core.vin = some v → exec .encode s = .refused .lenRange) ∧
    exec .decode s = .refused .lenRange

/-- R20, R174: no command has a step on an instance that still runs one. -/
def Obligations.BusyInstanceHasNoStep : Prop :=
  ∀ (s : State) (i : Instr), i.isCommand = true → s.core.engine ≠ .idle → exec i s = .fault .busy

/-- The frame of the commands that store nothing, SIZE, DECODE and the reserved words: STATUS, COUNT and VOUT of the selected instance may change,
nothing else does, and every byte of the buffer reads as before (R28, R83, R140). -/
def Obligations.NonStoringCommandFrame : Prop :=
  ∀ (s t : State) (i : Instr),
    i = .size ∨ i = .decode ∨ i = .reservedOp3 ∨ (∃ (rsvd : BitVec 6) (op : BitVec 2), i = .reservedRsvd rsvd op) →
    exec i s = .next t →
    t = { s with core := { s.core with
      status := t.core.status, count := t.core.count, vout := t.core.vout } } ∧
    ∀ a, t.buf.read a = s.buf.read a

/-- The frame of the wire-byte rows: only the internal state of the selected instance changes (R34, R35, R140). -/
def Obligations.WireByteFrame : Prop :=
  ∀ (s t : State) (i : Instr), i.isCommand = false → exec i s = .next t →
    t = { s with core := { s.core with engine := t.core.engine } } ∧ ∀ a, t.buf.read a = s.buf.read a

/-- After any command (R23, R24, R26, R161): the instance is idle, STATUS is one of the five codes, COUNT is 1..10 when STATUS is OK and ⊥
otherwise, and VOUT holds a value exactly after a DECODE that ended OK. -/
def Obligations.ResultsAfterCommand : Prop :=
  ∀ (s t : State) (i : Instr), i.isCommand = true → exec i s = .next t →
    t.core.engine = .idle ∧
    ∃ st : Status, t.core.status = some (statusCode st) ∧
      (st = .ok → ∃ n, 1 ≤ n ∧ n ≤ 10 ∧ t.core.count = some (BitVec.ofNat 4 n)) ∧
      (st ≠ .ok → t.core.count = none) ∧
      (t.core.vout ≠ none ↔ st = .ok ∧ i = .decode)

/-! ## The host -/

/-- R27, R28: the host writes VIN, POS or LEN of an idle instance with any value of the register's width, and nothing else changes.
That the event stands in a script is the model's choice, log entry 6. -/
def Obligations.HostWritesOperand : Prop :=
  ∀ (s t : State) (i v : Nat) (rest : List Event), s.core.cmd = none → select i s = some t → t.core.engine = .idle →
    (s.script = .write i .vin v :: rest → v < 2 ^ 64 →
      step s = .next { t with script := rest, core := { t.core with vin := some (BitVec.ofNat 64 v) } }) ∧
    (s.script = .write i .pos v :: rest → v < 2 ^ s.addrBits →
      step s = .next { t with script := rest, core := { t.core with pos := some v } }) ∧
    (s.script = .write i .len v :: rest → v < 2 ^ (s.addrBits + 1) →
      step s = .next { t with script := rest, core := { t.core with len := some v } })

/-- R22, R195: a host write of CMD is followed by the command it selects: two steps from the write the command has run as one step. That it
takes two is the model's choice, log entry 4. -/
def Obligations.HostIssuesCommand : Prop :=
  ∀ (s t : State) (i : Nat) (w : Byte) (rest : List Event), s.core.cmd = none → select i s = some t →
    t.core.engine = .idle → s.script = .write i .cmd w.toNat :: rest →
    ∃ u, step s = .next u ∧ u = { t with script := rest, core := { t.core with cmd := some w } } ∧
      step u = exec (decodeCommand w) { t with script := rest, core := { t.core with cmd := none } }

/-- R166: the host's read of CMD and its writes of STATUS, COUNT and VOUT are `refuse(NotInterface)`. That the event
stands in a script is the model's choice, log entry 6. -/
def Obligations.NotInterfaceRefused : Prop :=
  ∀ (s t : State) (i v : Nat) (rest : List Event), s.core.cmd = none → select i s = some t → t.core.engine = .idle →
    (s.script = .read i .cmd :: rest → step s = .refused .notInterface) ∧
    (s.script = .write i .status v :: rest → step s = .refused .notInterface) ∧
    (s.script = .write i .count v :: rest → step s = .refused .notInterface) ∧
    (s.script = .write i .vout v :: rest → step s = .refused .notInterface)

/-- R166, R195: the host's read of STATUS, COUNT or VOUT returns what the register holds, and is `fault(Unwritten)` where that is ⊥. Where the
value read is kept is the model's choice, log entry 8; that the event stands in a script, log entry 6. -/
def Obligations.HostReadsResult : Prop :=
  ∀ (s t : State) (i : Nat) (rest : List Event), s.core.cmd = none → select i s = some t → t.core.engine = .idle →
    (s.script = .read i .status :: rest →
      (t.core.status = none → step s = .fault .unwritten) ∧
      (∀ x, t.core.status = some x → step s = .next { t with script := rest, answer := some (x.setWidth 64) })) ∧
    (s.script = .read i .count :: rest →
      (t.core.count = none → step s = .fault .unwritten) ∧
      (∀ x, t.core.count = some x → step s = .next { t with script := rest, answer := some (x.setWidth 64) })) ∧
    (s.script = .read i .vout :: rest →
      (t.core.vout = none → step s = .fault .unwritten) ∧
      (∀ x, t.core.vout = some x → step s = .next { t with script := rest, answer := some x }))

/-- R85: a pseudo-command does what the lines of its expansion do one after another, each cell of a POKES at its own address. -/
def Obligations.PseudoCommandsAreTheirExpansions : Prop :=
  ∀ (codec : Nat) (l : Line), (expand l).flatMap (lineEvents codec) = lineEvents codec l ∧
    ∀ m ∈ expand l, expand m = [m]

/-- R52: BufWrite(a, b) sets cell a to b and changes no other cell. -/
def Obligations.BufferWriteSetsOneCell : Prop :=
  ∀ (s : State) (a : Nat) (b : Byte), a < 2 ^ s.addrBits →
    ∃ t, bufWrite s a b = .next t ∧ t = { s with buf := t.buf } ∧ t.buf.read a = some b ∧
      ∀ x, x ≠ a → t.buf.read x = s.buf.read x

/-- R84, R195: a POKE, at any time, sets one cell and nothing else. A cell outside BUF is the fault noSuchCell (log entry 12); that the event
stands in a script is log entry 6. -/
def Obligations.HostPokesCell : Prop :=
  ∀ (s : State) (a : Nat) (b : Byte) (rest : List Event), s.core.cmd = none → s.script = .poke a b :: rest →
    (a < 2 ^ s.addrBits →
      ∃ t, step s = .next t ∧ t = { s with script := rest, buf := t.buf } ∧ t.buf.read a = some b ∧
        ∀ x, x ≠ a → t.buf.read x = s.buf.read x) ∧
    (2 ^ s.addrBits ≤ a → step s = .fault .noSuchCell)

/-- R60, R201, R10: the host's read of a buffer cell while no command runs gives the byte of the cell and changes nothing else, and is
`fault(Unwritten)` where the cell holds ⊥. A cell outside BUF is the fault noSuchCell (log entry 12); where the byte read is kept and
that the host reads between commands only is the model's choice, log entries 8 and 18. -/
def Obligations.HostPeeksCell : Prop :=
  ∀ (s : State) (a : Nat) (rest : List Event), s.core.cmd = none → s.script = .peek a :: rest → firstBusy s = none →
    (∀ b : Byte, a < 2 ^ s.addrBits → s.buf.read a = some b →
      step s = .next { s with script := rest, answer := some (b.setWidth 64) }) ∧
    (a < 2 ^ s.addrBits → s.buf.read a = none → step s = .fault .unwritten) ∧
    (2 ^ s.addrBits ≤ a → step s = .fault .noSuchCell)

/-- R33, R34, R58, R62, R105, R107, R130: a command started on an idle instance begins, its operands read and checked, and makes its
buffer accesses later: an ENCODE with room at the start of its loop, one without room at the start of a prefix whose length is the
free value of log entry 3, a DECODE in the initial state of R34. A command without a buffer access completes. That a script says so
is the model's choice, log entry 6; what a running command holds is log entry 13, the initial `sign` log entry 19. -/
def Obligations.HostStartsCommand : Prop :=
  ∀ (s t : State) (i : Nat) (w : Byte) (rest : List Event), s.core.cmd = none → select i s = some t →
    t.core.engine = .idle → s.script = .start i w :: rest →
    (∀ (v : Word) (p len : Nat), decodeCommand w = .encode → t.core.vin = some v → t.core.pos = some p →
      t.core.len = some len → len ≤ 2 ^ s.addrBits →
      (p + encodedSize v ≤ len →
        step s = .next (setEngine { t with script := rest }
          (.encoding ⟨isNegative v, magnitude v, 0, p, .writing⟩))) ∧
      (capacity p len < encodedSize v →
        ∃ n, n ≤ capacity p len ∧ n = writtenOnFailure (capacity p len) s.draws ∧
          step s = .next (setEngine { t with script := rest, draws := s.draws + 1 }
            (.encoding ⟨isNegative v, magnitude v, 0, p, .short n⟩)))) ∧
    (∀ p len : Nat, decodeCommand w = .decode → t.core.pos = some p → t.core.len = some len → len ≤ 2 ^ s.addrBits →
      step s = .next (setEngine { t with script := rest }
        (.decoding ⟨.accumulating, 0#64, 0, 0, false, p, len⟩))) ∧
    (decodeCommand w ≠ .encode → decodeCommand w ≠ .decode →
      step s = exec (decodeCommand w) { t with script := rest })

/-- R20, R174, R195: while the instance the host turns to is busy, its command makes its next access; for a reset and a read of the buffer, while
any instance is busy, the first one does (R190, R60). The event stays in store. That the host waits so is the model's choice, log
entries 7, 15 and 18. -/
def Obligations.HostWaitsForBusyInstance : Prop :=
  (∀ (s t : State) (i : Nat) (r : Reg) (v : Nat) (w : Byte) (rest : List Event), s.core.cmd = none →
    select i s = some t → t.core.engine ≠ .idle →
    s.script = .write i r v :: rest ∨ s.script = .start i w :: rest ∨ s.script = .read i r :: rest →
    step s = advance t ∧ ∀ u, step s = .next u → u.script = s.script) ∧
  (∀ (s : State) (i a : Nat) (rest : List Event), s.core.cmd = none → firstBusy s = some i →
    s.script = .reset :: rest ∨ s.script = .peek a :: rest →
    step s = advanceAt i s ∧ ∀ u, step s = .next u → u.script = s.script)

/-- R190, R191: what reset leaves. Inside a run, between commands, every register of every instance is ⊥ and no command runs; BUF and the record
are unchanged. At the start of a run the same, with every cell ⊥ and the record empty, for any parameters. That
a reset is an event of a script is the model's choice, log entry 6, and that it waits until no command runs, log entry 7. -/
def Obligations.ResetLeaves : Prop :=
  (∀ (s : State) (rest : List Event), s.core.cmd = none → s.script = .reset :: rest → firstBusy s = none →
    ∃ t, step s = .next t ∧ t.codecs.length = s.codecs.length ∧ (∀ c ∈ t.codecs, c = Codec.reset) ∧
      t.buf = s.buf ∧ t.record = s.record ∧ t.addrBits = s.addrBits ∧ t.script = rest) ∧
  (∀ addrBits more : Nat, (State.resetWith addrBits more).codecs.length = more + 1 ∧
    (∀ c ∈ (State.resetWith addrBits more).codecs, c = Codec.reset) ∧
    (∀ a, (State.resetWith addrBits more).buf.read a = none) ∧ (State.resetWith addrBits more).record = none) ∧
  Codec.reset.cmd = none ∧ Codec.reset.vin = none ∧ Codec.reset.pos = none ∧ Codec.reset.len = none ∧
  Codec.reset.status = none ∧ Codec.reset.count = none ∧ Codec.reset.vout = none ∧ Codec.reset.engine = .idle

/-! ## The whole machine -/

/-- Every step keeps the invariant: the buffer stays in its canonical form and inside the address space, POS and LEN keep their widths, STATUS is
none of the reserved codes, COUNT is 1..10 exactly when STATUS is OK, VOUT goes with OK, and off = 7·k in every decoder that
accumulates (R23, R24, R26, R27, R29, R34). -/
def Obligations.StepKeepsInvariant : Prop :=
  ∀ s t : State, s.Inv → step s = .next t → t.Inv

/-- The invariant holds after reset, whatever the OPEN parameters are (R7, R190). -/
def Obligations.ResetHasInvariant : Prop :=
  State.reset.Inv ∧ ∀ addrBits more : Nat, (State.resetWith addrBits more).Inv

/-- No step changes the parameters of R7 or the record of R166, and a record once made is never cleared, whatever happens. -/
def Obligations.ParametersAndRecordStay : Prop :=
  (∀ s t : State, step s = .next t →
    t.addrBits = s.addrBits ∧ t.codecs.length = s.codecs.length ∧ t.record = s.record) ∧
  (∀ (s : State) (x : Stop) (n : Nat), s.record = some x → (runRecorded n s).record = some x) ∧
  (∀ s : State, s.record = none →
    (∀ f, step s = .fault f → (settle s).record = some (.fault f)) ∧
    (∀ r, step s = .refused r → (settle s).record = some (.refusal r)))

/-- R174: a step changes no instance but the one it is about: the one whose CMD holds a word, the one the event names, or, where the host waits or
has nothing in store, the first busy one. A POKE, and a read of the buffer that need not wait, change no instance; a reset that need
not wait is ResetLeaves. Which instance moves is the model's choice, log entries 6, 7 and 15. -/
def Obligations.OtherInstancesUntouched : Prop :=
  ∀ s t : State, step s = .next t →
    (s.core.cmd ≠ none → ∀ j, j ≠ s.before.length → t.codecs[j]? = s.codecs[j]?) ∧
    (s.core.cmd = none →
      (∀ (e : Event) (rest : List Event) (i : Nat), s.script = e :: rest → e.names = some i →
        ∀ j, j ≠ i → t.codecs[j]? = s.codecs[j]?) ∧
      (∀ (a : Nat) (b : Byte) (rest : List Event), s.script = .poke a b :: rest → t.codecs = s.codecs) ∧
      (∀ (a : Nat) (rest : List Event), s.script = .peek a :: rest → firstBusy s = none → t.codecs = s.codecs) ∧
      (∀ i, firstBusy s = some i →
        s.script = [] ∨ (∃ a rest, s.script = .peek a :: rest) ∨ (∃ rest, s.script = .reset :: rest) →
        ∀ j, j ≠ i → t.codecs[j]? = s.codecs[j]?) ∧
      (s.script = [] → firstBusy s = none → t = s))

/-- R104, R200: a command makes at most 10 byte accesses. Every turn of a running command brings it nearer its completion, from at most 11 turns
on: the eleventh is the completion, a turn of its own by log entry 13 (DEDUCED). -/
def Obligations.CommandsAreBounded : Prop :=
  ∀ s t : State, s.core.engine.Wf s.addrBits → s.core.engine ≠ .idle → advance s = .next t →
    s.core.engine.turnsLeft ≤ 11 ∧ t.core.engine.turnsLeft < s.core.engine.turnsLeft

/-- R56, R57: while a command runs, its access set is the one it began with: its turns only move bytes from what is to come to what is done, and
what is to come is always part of the set. -/
def Obligations.AccessSetsAreFixed : Prop :=
  (∀ s t : State, s.core.engine.Wf s.addrBits → advance s = .next t → t.core.engine ≠ .idle →
    ∀ a, (t.core.engine.writeSet a ↔ s.core.engine.writeSet a) ∧
      (t.core.engine.readSet t.buf a ↔ s.core.engine.readSet s.buf a)) ∧
  (∀ s : State, s.RaceFree → s.DisjointAhead)

/-- R61: the next accesses of two running commands give the same result in either order where what they still access is disjoint, and so where
their whole access sets are. -/
def Obligations.DisjointCommandsCommute : Prop :=
  ∀ (s t u : State) (i j : Nat) (c d : Codec), s.Inv → i ≠ j → s.codecs[i]? = some c → s.codecs[j]? = some d →
    c.engine.DisjointAhead s.buf d.engine → advanceAt i s = .next t → advanceAt j t = .next u →
    ∃ t' u', advanceAt j s = .next t' ∧ advanceAt i t' = .next u' ∧ u'.codecs = u.codecs ∧ u'.buf = u.buf ∧
      u'.addrBits = u.addrBits ∧ u'.script = u.script ∧ u'.answer = u.answer ∧ u'.draws = u.draws ∧
      u'.record = u.record

/-- R61, R195, R198: running commands that do not race go on not to, whichever makes its next access, and so do they behind a POKE outside their
access sets; and what they still access stays disjoint where it is. -/
def Obligations.DisjointCommandsStayDisjoint : Prop :=
  (∀ (s t : State) (i : Nat), s.Inv → s.RaceFree → advanceAt i s = .next t → t.RaceFree) ∧
  (∀ (s t : State) (a : Nat) (b : Byte), s.RaceFree → s.PokeSafe a → bufWrite s a b = .next t → t.RaceFree) ∧
  (∀ (s t : State) (i : Nat), s.Inv → s.DisjointAhead → advanceAt i s = .next t → t.DisjointAhead)

/-- R61: running commands, on any number of instances, give the same instances and buffer whatever the order of their accesses, where what they
still access is disjoint, and so where their whole access sets are; so the commands interleaved give what the same commands give one
after another, in any order. -/
def Obligations.DisjointCommandsRunInAnyOrder : Prop :=
  ∀ (s t : State) (xs ys : List Nat), s.Inv → s.DisjointAhead → xs.Perm ys → runTurns xs s = .next t →
    ∃ u, runTurns ys s = .next u ∧ u.codecs = t.codecs ∧ u.buf = t.buf ∧ u.addrBits = t.addrBits ∧
      u.script = t.script ∧ u.answer = t.answer ∧ u.draws = t.draws ∧ u.record = t.record

/-- R62, R195: a POKE of a cell a running command does not access any more does not disturb it, and so none of a cell outside its access set does:
before or after its next access, the result is the same. -/
def Obligations.PokeOutsideAccessSetCommutes : Prop :=
  ∀ (s : State) (a : Nat) (b : Byte), s.Inv → a < 2 ^ s.addrBits → ¬ s.core.engine.mayWrite a →
    ¬ s.core.engine.mayRead s.buf a →
    andThen (bufWrite s a b) advance = andThen (advance s) (fun t => bufWrite t a b)
end

