-- ==== Sys2Proof/Laws/Arithmetic.lean ====
section
/-! SUPPORT. The arithmetic of the encoder, pushed down to natural numbers. -/

namespace Sys2Proof.Machine

/-- `neg64` is negation modulo 2^64 (R9). -/
theorem neg64_eq_neg (x : Word) : neg64 x = -x := by
  apply BitVec.eq_of_toNat_eq
  simp [neg64, BitVec.toNat_neg]

@[simp] theorem neg64_neg64 (x : Word) : neg64 (neg64 x) = x := by simp [neg64_eq_neg]

theorem isNegative_eq_msb (v : Word) : isNegative v = v.msb := by
  simp [isNegative, BitVec.msb_eq_getLsbD_last]

@[simp] theorem fitsFinal_iff (m : Word) : fitsFinal m = true ↔ m.toNat ≤ 63 := by simp [fitsFinal]

@[simp] theorem shiftGroup_toNat (m : Word) : (shiftGroup m).toNat = m.toNat / 128 := by
  simp [shiftGroup, Nat.shiftRight_eq_div_pow]

/-- The count only starts elsewhere. -/
theorem sizeLoop_add (turns : Nat) (m : Word) (n k : Nat) : sizeLoop turns m (n + k) = sizeLoop turns m n + k := by
  induction turns generalizing m n with
  | zero => rfl
  | succ t ih =>
    simp only [sizeLoop]
    split
    · rfl
    · rw [show n + k + 1 = n + 1 + k by omega, ih]

/-- Enough turns are enough. -/
theorem sizeLoop_turns {t : Nat} {m : Word} (h : m.toNat < 2 ^ (7 * t + 6)) (extra n : Nat) :
    sizeLoop (t + extra) m n = sizeLoop t m n := by
  induction t generalizing m n with
  | zero =>
    have : fitsFinal m = true := by simp only [fitsFinal_iff]; simpa using Nat.le_pred_of_lt h
    cases extra with
    | zero => rfl
    | succ e => simp [sizeLoop, this]
  | succ t ih =>
    rw [show t + 1 + extra = (t + extra) + 1 by omega]
    simp only [sizeLoop]
    split
    · rfl
    · apply ih
      rw [shiftGroup_toNat]
      have : (2 : Nat) ^ (7 * (t + 1) + 6) = 128 * 2 ^ (7 * t + 6) := by
        rw [show 7 * (t + 1) + 6 = 7 + (7 * t + 6) by omega, pow_add]; norm_num
      omega

/-- A magnitude that fits the final byte takes one byte. -/
theorem sizeOfMagnitude_final {m : Word} (h : fitsFinal m = true) : sizeOfMagnitude m = 1 := by
  simp [sizeOfMagnitude, sizeLoop, h]

/-- Any other takes one byte more than what the shift leaves. -/
theorem sizeOfMagnitude_continuation {m : Word} (h : fitsFinal m = false) :
    sizeOfMagnitude m = sizeOfMagnitude (shiftGroup m) + 1 := by
  have h2 : (shiftGroup m).toNat < 2 ^ (7 * 9 + 6) := by have := (shiftGroup m).isLt; omega
  rw [sizeOfMagnitude, sizeOfMagnitude, sizeLoop, if_neg (by simp [h]),
    show (10 : Nat) = 9 + 1 by rfl, sizeLoop_turns h2, ← sizeLoop_add]

theorem sizeOfMagnitude_pos (m : Word) : 1 ≤ sizeOfMagnitude m := by
  cases h : fitsFinal m
  · rw [sizeOfMagnitude_continuation h]; omega
  · rw [sizeOfMagnitude_final h]

theorem sizeLoop_le (t : Nat) (m : Word) (n : Nat) : sizeLoop t m n ≤ n + t := by
  induction t generalizing m n with
  | zero => simp [sizeLoop]
  | succ t ih =>
    simp only [sizeLoop]
    split
    · omega
    · have := ih (shiftGroup m) (n + 1); omega

theorem sizeOfMagnitude_le (m : Word) : sizeOfMagnitude m ≤ 10 := by
  have h2 : m.toNat < 2 ^ (7 * 9 + 6) := by have := m.isLt; omega
  have h := sizeLoop_turns h2 1 1
  have := sizeLoop_le 9 m 1
  rw [sizeOfMagnitude, show (10 : Nat) = 9 + 1 by rfl, h]; omega

@[simp] theorem encodedBytes_length (v : Word) : (encodedBytes v).length = encodedSize v := by
  simp [encodedBytes]

end Sys2Proof.Machine
end

