-- ==== Sys2Proof/Laws/State.lean ====
section
/-! SUPPORT. What each update of the state leaves in each field: one lemma per field and update, so that no later proof
unfolds a record update. -/

namespace Sys2Proof.Machine

/-! ## setEngine -/

@[simp] theorem setEngine_core (s : State) (e : Engine) : (setEngine s e).core = { s.core with engine := e } := rfl
@[simp] theorem setEngine_before (s : State) (e : Engine) : (setEngine s e).before = s.before := rfl
@[simp] theorem setEngine_after (s : State) (e : Engine) : (setEngine s e).after = s.after := rfl
@[simp] theorem setEngine_buf (s : State) (e : Engine) : (setEngine s e).buf = s.buf := rfl
@[simp] theorem setEngine_addrBits (s : State) (e : Engine) : (setEngine s e).addrBits = s.addrBits := rfl
@[simp] theorem setEngine_script (s : State) (e : Engine) : (setEngine s e).script = s.script := rfl
@[simp] theorem setEngine_answer (s : State) (e : Engine) : (setEngine s e).answer = s.answer := rfl
@[simp] theorem setEngine_draws (s : State) (e : Engine) : (setEngine s e).draws = s.draws := rfl
@[simp] theorem setEngine_record (s : State) (e : Engine) : (setEngine s e).record = s.record := rfl
@[simp] theorem setEngine_setEngine (s : State) (e f : Engine) : setEngine (setEngine s e) f = setEngine s f := rfl

/-! ## finish -/

section
variable (st : Status) (n : Option (BitVec 4)) (v : Option Word) (s : State)

@[simp] theorem finish_core : (finish st n v s).core =
    { s.core with status := some (statusCode st), count := n, vout := v, engine := .idle } := rfl
@[simp] theorem finish_before : (finish st n v s).before = s.before := rfl
@[simp] theorem finish_after : (finish st n v s).after = s.after := rfl
@[simp] theorem finish_buf : (finish st n v s).buf = s.buf := rfl
@[simp] theorem finish_addrBits : (finish st n v s).addrBits = s.addrBits := rfl
@[simp] theorem finish_script : (finish st n v s).script = s.script := rfl
@[simp] theorem finish_answer : (finish st n v s).answer = s.answer := rfl
@[simp] theorem finish_draws : (finish st n v s).draws = s.draws := rfl
@[simp] theorem finish_record : (finish st n v s).record = s.record := rfl
end

theorem finishOk_eq (n : Nat) (v : Option Word) (s : State) :
    finishOk n v s = finish .ok (some (BitVec.ofNat 4 n)) v s := rfl
theorem finishError_eq (st : Status) (s : State) : finishError st s = finish st none none s := rfl

/-! ## takeCommand and placeCommand -/

@[simp] theorem takeCommand_core (s : State) : (takeCommand s).core = { s.core with cmd := none } := rfl
@[simp] theorem takeCommand_before (s : State) : (takeCommand s).before = s.before := rfl
@[simp] theorem takeCommand_after (s : State) : (takeCommand s).after = s.after := rfl
@[simp] theorem takeCommand_buf (s : State) : (takeCommand s).buf = s.buf := rfl
@[simp] theorem takeCommand_addrBits (s : State) : (takeCommand s).addrBits = s.addrBits := rfl
@[simp] theorem takeCommand_script (s : State) : (takeCommand s).script = s.script := rfl
@[simp] theorem takeCommand_answer (s : State) : (takeCommand s).answer = s.answer := rfl
@[simp] theorem takeCommand_draws (s : State) : (takeCommand s).draws = s.draws := rfl
@[simp] theorem takeCommand_record (s : State) : (takeCommand s).record = s.record := rfl

@[simp] theorem placeCommand_core (w : Byte) (s : State) :
    (placeCommand w s).core = { s.core with cmd := some w, engine := .idle } := rfl
@[simp] theorem placeCommand_buf (w : Byte) (s : State) : (placeCommand w s).buf = s.buf := rfl

/-! ## resetAll -/

@[simp] theorem resetAll_core (s : State) : (resetAll s).core = Codec.reset := rfl
@[simp] theorem resetAll_before (s : State) : (resetAll s).before = s.before.map (fun _ => Codec.reset) := rfl
@[simp] theorem resetAll_after (s : State) : (resetAll s).after = s.after.map (fun _ => Codec.reset) := rfl
@[simp] theorem resetAll_buf (s : State) : (resetAll s).buf = s.buf := rfl
@[simp] theorem resetAll_addrBits (s : State) : (resetAll s).addrBits = s.addrBits := rfl
@[simp] theorem resetAll_script (s : State) : (resetAll s).script = s.script := rfl
@[simp] theorem resetAll_answer (s : State) : (resetAll s).answer = s.answer := rfl
@[simp] theorem resetAll_draws (s : State) : (resetAll s).draws = s.draws := rfl
@[simp] theorem resetAll_record (s : State) : (resetAll s).record = s.record := rfl

/-! ## andThen -/

@[simp] theorem andThen_next (s : State) (k : State → Result) : andThen (.next s) k = k s := rfl
@[simp] theorem andThen_fault (f : Fault) (k : State → Result) : andThen (.fault f) k = .fault f := rfl
@[simp] theorem andThen_refused (r : Refusal) (k : State → Result) : andThen (.refused r) k = .refused r := rfl

/-- A sequence answers a next state exactly when both parts do. -/
theorem andThen_eq_next {r : Result} {k : State → Result} {t : State} :
    andThen r k = .next t ↔ ∃ s, r = .next s ∧ k s = .next t := by
  cases r <;> simp [andThen]

theorem andThen_assoc (r : Result) (k l : State → Result) :
    andThen (andThen r k) l = andThen r (fun s => andThen (k s) l) := by
  cases r <;> rfl

end Sys2Proof.Machine
end

