-- ==== Sys2Proof/Laws/Memory.lean ====
section
/-! SUPPORT. The laws of the buffer: a read after a write, what keeps the canonical form, and which writes commute. -/

namespace Sys2Proof.Machine

/-- The buffer after reset is in the canonical form. -/
theorem State.reset_buf_wf : Memory.wf State.reset.buf := List.Pairwise.nil

@[simp] theorem Memory.read_nil (a : Nat) : Memory.read [] a = none := rfl

/-- A read after a write to the same cell gives the byte written (R52). -/
@[simp] theorem Memory.read_write_same (m : Memory) (a : Nat) (b : Byte) : (Memory.write m a b).read a = some b := by
  induction m with
  | nil => simp [Memory.write, Memory.read]
  | cons x m ih =>
    obtain ⟨x, c⟩ := x
    simp only [Memory.write]
    split
    · simp [Memory.read]
    · split
      · simp [Memory.read]
      · rename_i h; simp [Memory.read, Ne.symm h, ih]

/-- A write changes no other cell (R52). -/
theorem Memory.read_write_other (m : Memory) {a x : Nat} (b : Byte) (h : x ≠ a) :
    (Memory.write m a b).read x = Memory.read m x := by
  induction m with
  | nil => simp [Memory.write, Memory.read, Ne.symm h]
  | cons y m ih =>
    obtain ⟨y, c⟩ := y
    simp only [Memory.write]
    split
    · simp [Memory.read, Ne.symm h]
    · split
      · rename_i h'; subst h'; simp [Memory.read, Ne.symm h]
      · simp [Memory.read, ih]

/-- The addresses listed after a write. -/
theorem Memory.mem_write {m : Memory} {a : Nat} {b : Byte} {x : Host.Cell} (h : x ∈ Memory.write m a b) :
    x = (a, b) ∨ x ∈ m := by
  induction m with
  | nil => simpa [Memory.write] using h
  | cons y m ih =>
    obtain ⟨y, c⟩ := y
    simp only [Memory.write] at h
    split at h
    · simpa using h
    · split at h
      · rcases List.mem_cons.1 h with h | h <;> simp [h]
      · rcases List.mem_cons.1 h with h | h
        · simp [h]
        · rcases ih h with h | h <;> simp [h]

/-- A write keeps the canonical form. -/
theorem Memory.write_wf {m : Memory} (h : Memory.wf m) (a : Nat) (b : Byte) : Memory.wf (Memory.write m a b) := by
  induction m with
  | nil => simp [Memory.write]
  | cons y m ih =>
    obtain ⟨y, c⟩ := y
    have hd := List.pairwise_cons.1 h
    simp only [Memory.write]
    split
    · rename_i hlt
      refine List.pairwise_cons.2 ⟨fun z hz => ?_, h⟩
      rcases List.mem_cons.1 hz with rfl | hz
      · exact hlt
      · exact lt_trans hlt (hd.1 z hz)
    · split
      · rename_i heq; subst heq
        exact List.pairwise_cons.2 ⟨hd.1, hd.2⟩
      · refine List.pairwise_cons.2 ⟨fun z hz => ?_, ih hd.2⟩
        rcases Memory.mem_write hz with rfl | hz
        · dsimp only; omega
        · exact hd.1 z hz

/-- A write below a bound keeps every listed address below it. -/
theorem Memory.write_range {m : Memory} {n : Nat} (h : ∀ x ∈ m, x.1 < n) {a : Nat} (ha : a < n) (b : Byte) :
    ∀ x ∈ Memory.write m a b, x.1 < n := by
  intro x hx
  rcases Memory.mem_write hx with rfl | hx
  · exact ha
  · exact h x hx

/-- In canonical form an address below all listed ones reads ⊥. -/
theorem Memory.read_of_lt {m : Memory} {a : Nat} (h : ∀ x ∈ m, a < x.1) : Memory.read m a = none := by
  induction m with
  | nil => rfl
  | cons y m ih =>
    obtain ⟨y, c⟩ := y
    have := h (y, c) (by simp)
    simp only [Memory.read]
    rw [if_neg (by dsimp only at this; omega)]
    exact ih fun x hx => h x (by simp [hx])

/-- Two buffers in canonical form that read the same everywhere are equal data. -/
theorem Memory.ext {m n : Memory} (hm : Memory.wf m) (hn : Memory.wf n)
    (h : ∀ a, Memory.read m a = Memory.read n a) : m = n := by
  induction m generalizing n with
  | nil =>
    cases n with
    | nil => rfl
    | cons y n => have := h y.1; simp [Memory.read] at this
  | cons x m ih =>
    obtain ⟨x, b⟩ := x
    have hmd := List.pairwise_cons.1 hm
    cases n with
    | nil => have := h x; simp [Memory.read] at this
    | cons y n =>
      obtain ⟨y, c⟩ := y
      have hnd := List.pairwise_cons.1 hn
      have hxy : x = y := by
        rcases lt_trichotomy x y with hlt | heq | hlt
        · have h1 := h x
          have h2 : Memory.read ((y, c) :: n) x = none := Memory.read_of_lt (by
            intro z hz; rcases List.mem_cons.1 hz with rfl | hz
            · exact hlt
            · exact lt_trans hlt (hnd.1 z hz))
          rw [h2] at h1; simp [Memory.read] at h1
        · exact heq
        · have h1 := h y
          have h2 : Memory.read ((x, b) :: m) y = none := Memory.read_of_lt (by
            intro z hz; rcases List.mem_cons.1 hz with rfl | hz
            · exact hlt
            · exact lt_trans hlt (hmd.1 z hz))
          rw [h2] at h1; simp [Memory.read] at h1
      subst hxy
      have hbc : b = c := by have := h x; simpa [Memory.read] using this
      subst hbc
      congr 1
      refine ih hmd.2 hnd.2 fun a => ?_
      by_cases ha : x = a
      · subst ha
        rw [Memory.read_of_lt hmd.1, Memory.read_of_lt hnd.1]
      · have := h a; simpa [Memory.read, ha] using this

/-- Writes to different cells commute in canonical form. -/
theorem Memory.write_comm {m : Memory} (h : Memory.wf m) {a x : Nat} (b c : Byte) (hne : a ≠ x) :
    Memory.write (Memory.write m a b) x c = Memory.write (Memory.write m x c) a b := by
  refine Memory.ext (Memory.write_wf (Memory.write_wf h _ _) _ _) (Memory.write_wf (Memory.write_wf h _ _) _ _) ?_
  intro y
  by_cases hx : y = x
  · subst hx; rw [Memory.read_write_same, Memory.read_write_other _ _ (Ne.symm hne), Memory.read_write_same]
  · by_cases ha : y = a
    · subst ha; rw [Memory.read_write_same, Memory.read_write_other _ _ hx, Memory.read_write_same]
    · simp [Memory.read_write_other, hx, ha]

/-! ## Several bytes -/

/-- A run of writes keeps the canonical form. -/
theorem Memory.writeBytes_wf {m : Memory} (h : Memory.wf m) (a : Nat) (bs : List Byte) :
    Memory.wf (Memory.writeBytes m a bs) := by
  induction bs generalizing m a with
  | nil => exact h
  | cons b bs ih => exact ih (Memory.write_wf h a b) _

/-- A run of writes changes no cell outside it. -/
theorem Memory.read_writeBytes_outside (m : Memory) (a : Nat) (bs : List Byte) {x : Nat}
    (h : x < a ∨ a + bs.length ≤ x) : (Memory.writeBytes m a bs).read x = Memory.read m x := by
  induction bs generalizing m a with
  | nil => rfl
  | cons b bs ih =>
    simp only [List.length_cons] at h
    rw [Memory.writeBytes, ih _ _ (by omega), Memory.read_write_other _ _ (by omega)]

/-- A run of writes leaves its bytes in its cells. -/
theorem Memory.read_writeBytes_inside (m : Memory) (a : Nat) (bs : List Byte) {k : Nat} (h : k < bs.length) :
    (Memory.writeBytes m a bs).read (a + k) = bs[k]? := by
  induction bs generalizing m a k with
  | nil => simp at h
  | cons b bs ih =>
    rw [Memory.writeBytes]
    cases k with
    | zero => rw [Nat.add_zero, Memory.read_writeBytes_outside _ _ _ (by omega)]; simp
    | succ k =>
      have := ih (Memory.write m a b) (a + 1) (k := k) (by simpa using h)
      rw [show a + (k + 1) = a + 1 + k by omega, this]; simp

/-- A run of writes and one more byte behind it. -/
theorem Memory.writeBytes_append (m : Memory) (a : Nat) (bs cs : List Byte) :
    Memory.writeBytes m a (bs ++ cs) = Memory.writeBytes (Memory.writeBytes m a bs) (a + bs.length) cs := by
  induction bs generalizing m a with
  | nil => rfl
  | cons b bs ih =>
    simp only [List.cons_append, Memory.writeBytes, List.length_cons]
    rw [ih, show a + 1 + bs.length = a + (bs.length + 1) by omega]

end Sys2Proof.Machine
end

