-- ==== Sys2Proof/Laws/Ops.lean ====
section
/-! SUPPORT. What each shared operation can answer, said once. -/

namespace Sys2Proof.Machine

/-- A buffer write that answers a next state has written the one cell (R52). -/
theorem bufWrite_eq_next {s t : State} {a : Nat} {b : Byte} :
    bufWrite s a b = .next t ↔ a < 2 ^ s.addrBits ∧ t = { s with buf := s.buf.write a b } := by
  unfold bufWrite
  split <;> simp_all [eq_comm]

/-- A buffer read goes on with the byte the cell holds, or faults (R51). -/
theorem bufRead_eq_next {s t : State} {a : Nat} {k : Byte → Result} :
    bufRead s a k = .next t ↔ a < 2 ^ s.addrBits ∧ ∃ b, s.buf.read a = some b ∧ k b = .next t := by
  unfold bufRead
  split
  · cases s.buf.read a <;> simp_all
  · simp_all

/-- The forward readings of the two buffer accesses. -/
theorem bufWrite_of_lt {s : State} {a : Nat} (b : Byte) (h : a < 2 ^ s.addrBits) :
    bufWrite s a b = .next { s with buf := s.buf.write a b } := if_pos h

theorem bufRead_of_some {s : State} {a : Nat} {b : Byte} (k : Byte → Result) (h : a < 2 ^ s.addrBits)
    (hb : s.buf.read a = some b) : bufRead s a k = k b := by
  simp [bufRead, h, hb]

theorem bufRead_of_none {s : State} {a : Nat} (k : Byte → Result) (h : a < 2 ^ s.addrBits)
    (hb : s.buf.read a = none) : bufRead s a k = .fault .unwritten := by
  simp [bufRead, h, hb]

/-- A register read goes on with the value, or faults (R10). -/
theorem withValue_eq_next {α : Type} {r : Option α} {k : α → Result} {t : State} :
    withValue r k = .next t ↔ ∃ v, r = some v ∧ k v = .next t := by
  cases r <;> simp [withValue]

/-- The LEN check passes or refuses (R166). -/
theorem withinRange_eq_next {s t : State} {len : Nat} {k : Result} :
    withinRange s len k = .next t ↔ len ≤ 2 ^ s.addrBits ∧ k = .next t := by
  unfold withinRange
  split <;> simp_all

/-- A command runs on an idle instance only (R174). -/
theorem whenIdle_eq_next {s t : State} {k : State → Result} :
    whenIdle s k = .next t ↔ s.core.engine = .idle ∧ k s = .next t := by
  unfold whenIdle
  split <;> simp_all

@[simp] theorem withValue_some {α : Type} (v : α) (k : α → Result) : withValue (some v) k = k v := rfl
@[simp] theorem withValue_none {α : Type} (k : α → Result) : withValue none k = .fault .unwritten := rfl
@[simp] theorem whenIdle_idle {s : State} (k : State → Result) (h : s.core.engine = .idle) : whenIdle s k = k s :=
  if_pos h
@[simp] theorem withinRange_le {s : State} {len : Nat} (k : Result) (h : len ≤ 2 ^ s.addrBits) :
    withinRange s len k = k := if_pos h

/-- Selecting moves no instance and changes nothing else. -/
theorem select_eq_some {i : Nat} {s t : State} (h : select i s = some t) :
    t.codecs = s.codecs ∧ t.before.length = i ∧ s.codecs[i]? = some t.core ∧
      t = { s with before := t.before, core := t.core, after := t.after } := by
  unfold select at h
  split at h
  · cases h
  · rename_i c rest hd
    obtain rfl := Option.some.inj h
    have hlen : i < s.codecs.length := by
      by_contra hn
      rw [List.drop_eq_nil_of_le (by omega)] at hd; cases hd
    refine ⟨?_, ?_, ?_, rfl⟩
    · rw [State.codecs, ← hd, List.take_append_drop]
    · simp only [List.length_take]; omega
    · have := congrArg (fun l => l[0]?) hd
      simpa using this

/-- An instance of that number can be selected. -/
theorem select_of_getElem? {i : Nat} {s : State} {c : Codec} (h : s.codecs[i]? = some c) :
    ∃ t, select i s = some t ∧ t.core = c := by
  obtain ⟨hi, hc⟩ := List.getElem?_eq_some_iff.1 h
  have : s.codecs.drop i = c :: s.codecs.drop (i + 1) := by
    rw [List.drop_eq_getElem_cons hi, hc]
  unfold select
  rw [this]
  exact ⟨_, rfl, rfl⟩

/-- `firstBusy` finds an instance that runs a command. -/
theorem firstBusy_eq_some {s : State} {i : Nat} (h : firstBusy s = some i) :
    ∃ c, s.codecs[i]? = some c ∧ c.engine ≠ .idle := by
  unfold firstBusy at h
  obtain ⟨hi, hp, -⟩ := List.findIdx?_eq_some_iff_getElem.1 h
  exact ⟨s.codecs[i], by simp [hi], by simpa using hp⟩

/-- Without one, every instance is idle. -/
theorem firstBusy_eq_none {s : State} : firstBusy s = none ↔ ∀ c ∈ s.codecs, c.engine = .idle := by
  simp [firstBusy, List.findIdx?_eq_none_iff]

end Sys2Proof.Machine
end

