-- ==== Sys2Proof/Laws/Engine.lean ====
section
/-! SUPPORT. What one turn of a command can do, said once. -/

namespace Sys2Proof.Machine

/-- The piece a failed ENCODE leaves written is no longer than the capacity (R107). -/
theorem writtenOnFailure_le (cap draws : Nat) : writtenOnFailure cap draws ≤ cap := by
  cases cap with
  | zero => rfl
  | succ c => exact Nat.le_of_lt_succ (Nat.mod_lt _ (by omega))

/-- What an ENCODE that begins does: one of the two forms of R105. -/
theorem beginEncode_cases {s t : State} (h : beginEncode s = .next t) :
    ∃ v p len, s.core.vin = some v ∧ s.core.pos = some p ∧ s.core.len = some len ∧ len ≤ 2 ^ s.addrBits ∧
      ((capacity p len < encodedSize v ∧ t = setEngine { s with draws := s.draws + 1 } (.encoding
          { neg := isNegative v, m := magnitude v, k := 0, base := p,
            phase := .short (writtenOnFailure (capacity p len) s.draws) })) ∨
       (encodedSize v ≤ capacity p len ∧ t = setEngine s (.encoding
          { neg := isNegative v, m := magnitude v, k := 0, base := p, phase := .writing }))) := by
  simp only [beginEncode, withValue_eq_next, withinRange_eq_next] at h
  obtain ⟨v, hv, p, hp, len, hl, hle, h⟩ := h
  refine ⟨v, p, len, hv, hp, hl, hle, ?_⟩
  split at h
  · exact .inl ⟨‹_›, by simpa using h.symm⟩
  · exact .inr ⟨by omega, by simpa using h.symm⟩

/-- What a DECODE that begins does (R130). -/
theorem beginDecode_cases {s t : State} (h : beginDecode s = .next t) :
    ∃ p len, s.core.pos = some p ∧ s.core.len = some len ∧ len ≤ 2 ^ s.addrBits ∧
      t = setEngine s (.decoding
        { phase := .accumulating, acc := 0#64, off := 0, k := 0, sign := false, base := p, limit := len }) := by
  simp only [beginDecode, withValue_eq_next, withinRange_eq_next] at h
  obtain ⟨p, hp, len, hl, hle, h⟩ := h
  exact ⟨p, len, hp, hl, hle, by simpa using h.symm⟩

/-- Every turn of an ENCODE is one of these (R105, R107). -/
theorem encodeTick_cases {e : EncState} {s t : State} (h : encodeTick e s = .next t) :
    (e.phase = .writing ∧ fitsFinal e.m = true ∧ e.base + e.k < 2 ^ s.addrBits ∧
      t = setEngine { s with buf := s.buf.write (e.base + e.k) (finalByte e.neg e.m) }
        (.encoding { e with k := e.k + 1, phase := .done })) ∨
    (e.phase = .writing ∧ fitsFinal e.m = false ∧ e.base + e.k < 2 ^ s.addrBits ∧
      t = setEngine { s with buf := s.buf.write (e.base + e.k) (continuationByte e.m) }
        (.encoding { e with m := shiftGroup e.m, k := e.k + 1, phase := .writing })) ∨
    (e.phase = .short 0 ∧ t = finishError .bufferTooSmall s) ∨
    (∃ left, e.phase = .short (left + 1) ∧ e.base + e.k < 2 ^ s.addrBits ∧
      t = setEngine { s with buf := s.buf.write (e.base + e.k) (continuationByte e.m) }
        (.encoding { e with m := shiftGroup e.m, k := e.k + 1, phase := .short left })) ∨
    (e.phase = .done ∧ t = finishOk e.k none s) := by
  unfold encodeTick at h
  split at h
  · rename_i hp
    split at h
    · rename_i hf
      simp only [writeFinal, andThen_eq_next, bufWrite_eq_next] at h
      obtain ⟨_, ⟨ha, rfl⟩, h⟩ := h
      exact .inl ⟨hp, hf, ha, by simpa using h.symm⟩
    · rename_i hf
      simp only [writeContinuation, andThen_eq_next, bufWrite_eq_next] at h
      obtain ⟨_, ⟨ha, rfl⟩, h⟩ := h
      exact .inr (.inl ⟨hp, Bool.not_eq_true _ ▸ hf, ha, by simpa using h.symm⟩)
  · exact .inr (.inr (.inl ⟨‹_›, by simpa using h.symm⟩))
  · rename_i left hp
    simp only [writeContinuation, andThen_eq_next, bufWrite_eq_next] at h
    obtain ⟨_, ⟨ha, rfl⟩, h⟩ := h
    exact .inr (.inr (.inr (.inl ⟨left, hp, ha, by simpa using h.symm⟩)))
  · exact .inr (.inr (.inr (.inr ⟨‹_›, by simpa using h.symm⟩)))

/-- What a byte does, by its continuation flag (R70). -/
theorem consume_continuation {b : Byte} (h : b.getLsbD 7 = true) (d : DecState) :
    consume b d = consumeContinuation (group7 b) d := if_pos h

theorem consume_final {b : Byte} (h : b.getLsbD 7 = false) (d : DecState) :
    consume b d = consumeFinal (signFlag b) (group6 b) d := if_neg (by rw [continuationFlag, h]; decide)

/-- Which row a byte belongs to, by its continuation flag (R70). -/
theorem decodeWire_continuation {b : Byte} (h : b.getLsbD 7 = true) :
    decodeWire b = .wireContinuation (group7 b) := if_pos h

theorem decodeWire_final {b : Byte} (h : b.getLsbD 7 = false) :
    decodeWire b = .wireFinal (signFlag b) (group6 b) := if_neg (by rw [h]; decide)

/-- Every turn of a DECODE is one of these (R35). -/
theorem decodeTick_cases {d : DecState} {s t : State} (h : decodeTick d s = .next t) :
    (d.phase = .accumulating ∧ d.limit ≤ d.base + d.k ∧ t = setEngine s (.decoding (exhausted d))) ∨
    (d.phase = .accumulating ∧ d.base + d.k < d.limit ∧
      ∃ b, s.buf.read (d.base + d.k) = some b ∧ t = setEngine s (.decoding (consume b d))) ∨
    (d.phase = .done ∧ t = finishOk d.k (some (decodedValue d)) s) ∨
    (∃ why, d.phase = .failed why ∧ t = finishError (failureStatus why) s) := by
  unfold decodeTick at h
  split at h
  · rename_i hp
    split at h
    · exact .inl ⟨hp, ‹_›, by simpa using h.symm⟩
    · simp only [bufRead_eq_next] at h
      obtain ⟨_, b, hb, h⟩ := h
      exact .inr (.inl ⟨hp, by omega, b, hb, by simpa using h.symm⟩)
  · exact .inr (.inr (.inl ⟨‹_›, by simpa using h.symm⟩))
  · exact .inr (.inr (.inr ⟨_, ‹_›, by simpa using h.symm⟩))

/-- Every turn is a turn of the command that runs, if one does. -/
theorem tick_cases {s t : State} (h : tick s = .next t) :
    (s.core.engine = .idle ∧ t = s) ∨
    (∃ e, s.core.engine = .encoding e ∧ encodeTick e s = .next t) ∨
    (∃ d, s.core.engine = .decoding d ∧ decodeTick d s = .next t) := by
  unfold tick at h
  split at h
  · exact .inl ⟨‹_›, by simpa using h.symm⟩
  · exact .inr (.inl ⟨_, ‹_›, h⟩)
  · exact .inr (.inr ⟨_, ‹_›, h⟩)

/-- The two unfoldings of `drain`. -/
theorem drain_idle {s : State} (h : s.core.engine = .idle) (n : Nat) : drain n s = .next s := by
  cases n with
  | zero => rfl
  | succ n => simp [drain, h]

theorem drain_busy {s : State} (h : s.core.engine ≠ .idle) (n : Nat) :
    drain (n + 1) s = andThen (tick s) (drain n) := by simp [drain, h]

end Sys2Proof.Machine
end

