-- ==== Sys2Proof/Laws/Events.lean ====
section
/-! SUPPORT. What the step does with the host's next event, and what the host's waiting can do. -/

namespace Sys2Proof.Machine

/-- A step with nothing in CMD runs the next event. -/
theorem step_event {s : State} {e : Event} {rest : List Event} (hc : s.core.cmd = none) (hs : s.script = e :: rest) :
    step s = runEvent e rest s := by
  simp [step, runNext, hc, hs]

/-- Selecting depends on nothing but the instances, and changes nothing but which is selected. -/
theorem select_frame {i : Nat} {s t : State} (h : select i s = some t) :
    t.addrBits = s.addrBits ∧ t.buf = s.buf ∧ t.script = s.script ∧ t.answer = s.answer ∧ t.draws = s.draws ∧
      t.record = s.record := by
  rw [(select_eq_some h).2.2.2]
  exact ⟨rfl, rfl, rfl, rfl, rfl, rfl⟩

/-- An idle instance lets the host go on. -/
theorem onceIdle_idle {i : Nat} {rest : List Event} {s t : State} {k : State → Result} (h : select i s = some t)
    (hi : t.core.engine = .idle) : onceIdle i rest s k = k { t with script := rest } := by
  simp [onceIdle, h, hi]

/-- A busy instance advances instead. -/
theorem onceIdle_busy {i : Nat} {rest : List Event} {s t : State} {k : State → Result} (h : select i s = some t)
    (hb : t.core.engine ≠ .idle) : onceIdle i rest s k = advance t := by
  simp [onceIdle, h, hb]

/-- With no command running the host goes on. -/
theorem onceAllIdle_idle {rest : List Event} {s : State} {k : State → Result} (h : firstBusy s = none) :
    onceAllIdle rest s k = k { s with script := rest } := by
  simp [onceAllIdle, h]

/-- The first busy instance advances instead. -/
theorem onceAllIdle_busy {rest : List Event} {s : State} {k : State → Result} {i : Nat} (h : firstBusy s = some i) :
    onceAllIdle rest s k = advanceAt i s := by
  simp [onceAllIdle, h]

/-- All a step behind an event that waits for one instance can be: that instance's next access, or the event. -/
theorem onceIdle_cases {i : Nat} {rest : List Event} {s u : State} {k : State → Result}
    (h : onceIdle i rest s k = .next u) :
    ∃ t, select i s = some t ∧ (t.core.engine ≠ .idle ∧ advance t = .next u ∨
      t.core.engine = .idle ∧ k { t with script := rest } = .next u) := by
  unfold onceIdle at h
  split at h
  · cases h
  · rename_i t ht
    split at h
    · exact ⟨t, ht, .inr ⟨‹_›, h⟩⟩
    · exact ⟨t, ht, .inl ⟨‹_›, h⟩⟩

/-- All a step behind an event that waits for every instance can be. -/
theorem onceAllIdle_cases {rest : List Event} {s u : State} {k : State → Result} (h : onceAllIdle rest s k = .next u) :
    (∃ i, firstBusy s = some i ∧ advanceAt i s = .next u) ∨
      (firstBusy s = none ∧ k { s with script := rest } = .next u) := by
  unfold onceAllIdle at h
  split at h
  · exact .inl ⟨_, ‹_›, h⟩
  · exact .inr ⟨‹_›, h⟩

end Sys2Proof.Machine
end

