-- ==== Sys2Proof/Laws/PerInstr.lean ====
section
/-! SUPPORT. A law about each instruction as text: its word fits its row of the opcode table. -/

namespace Sys2Proof.Laws

/-- The `mask` of a row of spec/opcode_table.json. -/
def rowMask : Instr → Byte
  | .encode => 0xFF#8
  | .size => 0xFF#8
  | .decode => 0xFF#8
  | .reservedOp3 => 0xFF#8
  | .reservedRsvd _ _ => 0x00#8
  | .wireContinuation _ => 0x80#8
  | .wireFinal _ _ => 0x80#8

/-- The `match` of a row of spec/opcode_table.json. -/
def rowMatch : Instr → Byte
  | .encode => 0x00#8
  | .size => 0x01#8
  | .decode => 0x02#8
  | .reservedOp3 => 0x03#8
  | .reservedRsvd _ _ => 0x00#8
  | .wireContinuation _ => 0x80#8
  | .wireFinal _ _ => 0x00#8

/-- The word of a well-formed instruction meets its row's mask and match, and no CMD8 word of lower priority takes a row
of higher priority: RESERVED_RSVD's words are those above 0x03. -/
def TableRow.Statement (i : Instr) : Prop :=
  i.wellFormed = true →
    encode i &&& rowMask i = rowMatch i ∧
    (∀ (rsvd : BitVec 6) (op : BitVec 2), i = .reservedRsvd rsvd op → 0x03 < (encode i).toNat)

theorem TableRow.encode : TableRow.Statement .encode := by
  intro _; exact ⟨by decide, by intro _ _ h; cases h⟩

theorem TableRow.size : TableRow.Statement .size := by
  intro _; exact ⟨by decide, by intro _ _ h; cases h⟩

theorem TableRow.decode : TableRow.Statement .decode := by
  intro _; exact ⟨by decide, by intro _ _ h; cases h⟩

theorem TableRow.reservedOp3 : TableRow.Statement .reservedOp3 := by
  intro _; exact ⟨by decide, by intro _ _ h; cases h⟩

theorem TableRow.reservedRsvd (rsvd : BitVec 6) (op : BitVec 2) : TableRow.Statement (.reservedRsvd rsvd op) := by
  intro hw
  refine ⟨by simp [rowMask, rowMatch], fun r o h => ?_⟩
  have h0 : rsvd.toNat ≠ 0 := by
    intro h0
    have : rsvd = 0#6 := BitVec.eq_of_toNat_eq (by simpa using h0)
    simp [Instr.wellFormed, this] at hw
  simp only [Sys2Proof.encode, BitVec.toNat_append, Nat.shiftLeft_eq]
  have := Nat.left_le_or (n := rsvd.toNat * 2 ^ 2) (m := op.toNat)
  omega

theorem TableRow.wireContinuation (g7 : BitVec 7) : TableRow.Statement (.wireContinuation g7) := by
  intro _
  refine ⟨?_, by intro _ _ h; cases h⟩
  revert g7; decide

theorem TableRow.wireFinal (sign : Bool) (g6 : BitVec 6) : TableRow.Statement (.wireFinal sign g6) := by
  intro _
  refine ⟨?_, by intro _ _ h; cases h⟩
  revert g6; revert sign; decide

end Sys2Proof.Laws
end

