-- ==== Sys2Proof/Laws/Safety.lean ====
section
/-! SUPPORT. The small laws of access sets: what an idle instance accesses, symmetry, and what a change of the buffer does to
what a command reads. -/

namespace Sys2Proof.Machine

@[simp] theorem Engine.not_mayWrite_idle (a : Nat) : ¬ Engine.idle.mayWrite a := id
@[simp] theorem Engine.not_mayRead_idle (m : Memory) (a : Nat) : ¬ Engine.idle.mayRead m a := id
@[simp] theorem Engine.not_writeSet_idle (a : Nat) : ¬ Engine.idle.writeSet a := fun h => h.elim id id
@[simp] theorem Engine.not_readSet_idle (m : Memory) (a : Nat) : ¬ Engine.idle.readSet m a := fun h => h.elim id id

/-- What is still to be written is part of the access set (R56). -/
theorem Engine.writeSet_of_mayWrite {eng : Engine} {a : Nat} (h : eng.mayWrite a) : eng.writeSet a := .inr h

/-- What is still to be read is part of the access set (R57). -/
theorem Engine.readSet_of_mayRead {eng : Engine} {m : Memory} {a : Nat} (h : eng.mayRead m a) : eng.readSet m a := .inr h

theorem Engine.Disjoint.symm {m : Memory} {x y : Engine} (h : x.Disjoint m y) : y.Disjoint m x := fun a =>
  ⟨fun hy => ⟨fun hx => ((h a).1 hx).1 hy, (h a).2 hy⟩, fun hx => ((h a).1 hx).2⟩

theorem Engine.DisjointAhead.symm {m : Memory} {x y : Engine} (h : x.DisjointAhead m y) : y.DisjointAhead m x := fun a =>
  ⟨fun hy => ⟨fun hx => ((h a).1 hx).1 hy, (h a).2 hy⟩, fun hx => ((h a).1 hx).2⟩

/-- A change of cells that a command does not read adds nothing to what it still reads. -/
theorem Engine.mayRead_mono {eng : Engine} {m m' : Memory} (h : ∀ x, m'.read x ≠ m.read x → ¬ eng.mayRead m x) {a : Nat}
    (ha : eng.mayRead m' a) : eng.mayRead m a := by
  unfold Engine.mayRead at *
  cases eng with
  | idle => exact ha
  | encoding e => exact ha
  | decoding d =>
    simp only at *
    split at ha
    · rename_i hp
      obtain ⟨h1, h2, h3, h4⟩ := ha
      refine ⟨h1, h2, h3, fun x => ?_⟩
      induction x using Nat.strong_induction_on with
      | _ x ih =>
        intro hx hxa
        have hr : m'.read x = m.read x := by
          by_contra hne
          refine h x hne ?_
          simp only [hp]
          exact ⟨hx, by omega, by omega, fun y hy hyx => ih y hyx hy (by omega)⟩
        exact hr ▸ h4 x hx hxa
    · exact ha
    · exact ha

/-- The same of the whole set of what it reads. -/
theorem Engine.readSet_mono {eng : Engine} {m m' : Memory} (h : ∀ x, m'.read x ≠ m.read x → ¬ eng.readSet m x) {a : Nat}
    (ha : eng.readSet m' a) : eng.readSet m a :=
  ha.imp id (Engine.mayRead_mono fun x hx hr => h x hx (.inr hr))

end Sys2Proof.Machine
end

