-- ==== Sys2Proof/Tests/Slice0.lean ====
section
/-! SUPPORT. Tests of the model against words and vectors written out in spec/ (30_encoding.md, 95_test_vectors.md), and for
each statement with hypotheses a witness that meets them all. -/

namespace Sys2Proof.Tests

open Sys2Proof Sys2Proof.Machine

/-! ## Helpers -/

/-- An idle instance with given operand registers. -/
def idleWith (vin : Option Word) (pos len : Option Nat) : Codec := { Codec.reset with vin := vin, pos := pos, len := len }

/-- One instance, ADDR_BITS = 8 as in 95_test_vectors.md section 3. -/
def oneCodec (c : Codec) (buf : Memory) : State := { State.resetWith 8 0 with core := c, buf := buf }

/-- Bytes laid out from cell 0 on. -/
def bytesAt0 (bs : List Byte) : Memory := Memory.writeBytes [] 0 bs

/-- A DECODE at POS = 0 with k bytes consumed. -/
def decAt (k limit : Nat) (phase : DecPhase) : DecState := ⟨phase, 0#64, 7 * k, k, false, 0, limit⟩

/-- An instance that runs that DECODE. -/
def decodingAt (k limit : Nat) (phase : DecPhase) : Codec := { Codec.reset with engine := .decoding (decAt k limit phase) }

/-- An instance that runs an ENCODE of the magnitude `m` at POS = `p`. -/
def encodingAt (p : Nat) (m : Word) : Codec := { Codec.reset with engine := .encoding ⟨false, m, 0, p, .writing⟩ }

/-- What a test compares: STATUS, COUNT, VOUT of the selected instance and the buffer. -/
structure Seen where
  status : Option (BitVec 3)
  count : Option (BitVec 4)
  vout : Option Word
  buf : Memory
  deriving DecidableEq

/-- A result, reduced to what a test compares. -/
def results (r : Result) : Option Seen :=
  match r with
  | .next s => some ⟨s.core.status, s.core.count, s.core.vout, s.buf⟩
  | .fault _ => none
  | .refused _ => none

/-- The internal state a result leaves. -/
def engineOf (r : Result) : Option Engine :=
  match r with
  | .next s => some s.core.engine
  | .fault _ => none
  | .refused _ => none

/-! ## WellFormed: the one check, and an ill-formed term it refuses -/

theorem test_wellFormed_refuses_zero_rsvd : (Instr.reservedRsvd 0#6 2#2).wellFormed = false := by decide
theorem test_wellFormed_accepts_rsvd : (Instr.reservedRsvd 1#6 2#2).wellFormed = true := by decide
theorem test_line_refuses_pos_beyond_buffer : (Line.setPos 256).wellFormed 8 = false := by decide
theorem test_line_refuses_len_beyond_buffer : (Line.setLen 257).wellFormed 8 = false := by decide
theorem test_line_refuses_poke_beyond_buffer : (Line.poke 256 0#8).wellFormed 8 = false := by decide
theorem test_line_refuses_pokes_beyond_buffer : (Line.pokes 255 [0#8, 0#8]).wellFormed 8 = false := by decide
theorem test_line_refuses_encode_beyond_buffer : (Line.encodeAt 0 256).wellFormed 8 = false := by decide
theorem test_line_refuses_decode_beyond_buffer : (Line.decodeAt 256).wellFormed 8 = false := by decide

/-! ## Decode: words written out from the tables of R80, R81, R71 and R72 -/

theorem test_decode_encode : decodeCommand 0b00000000#8 = .encode := by decide
theorem test_decode_size : decodeCommand 0b00000001#8 = .size := by decide
theorem test_decode_decode : decodeCommand 0b00000010#8 = .decode := by decide
theorem test_decode_reservedOp3 : decodeCommand 0b00000011#8 = .reservedOp3 := by decide
theorem test_decode_reservedRsvd : decodeCommand 0b00000110#8 = .reservedRsvd 0b000001#6 0b10#2 := by decide
theorem test_decode_reservedRsvd_top : decodeCommand 0b10000000#8 = .reservedRsvd 0b100000#6 0b00#2 := by decide
theorem test_decode_wireContinuation : decodeWire 0b11000000#8 = .wireContinuation 0b1000000#7 := by decide
theorem test_decode_wireFinal : decodeWire 0b01000001#8 = .wireFinal true 0b000001#6 := by decide
theorem test_decode_no_word : decodeCommandBytes [] = .error .noWord ∧ decodeWireBytes [] = .error .noWord :=
  ⟨rfl, rfl⟩

/-! ## SIZE (95_test_vectors.md 2.1) -/

theorem test_size_table : [0#64, 0x3F#64, 0xFFFFFFFFFFFFFFC1#64, 0x40#64, 0x1FFF#64, 0x2000#64, 0xFFFFF#64, 0x100000#64,
    0x3FFFFFFFFFFFFFFF#64, 0x4000000000000000#64, int64Max, int64Min].map encodedSize
    = [1, 1, 1, 2, 2, 3, 3, 4, 9, 10, 10, 10] := by decide
/-- POS and LEN are ⊥ (D21). -/
theorem test_size_without_pos : results (exec .size (oneCodec (idleWith (some 300#64) none none) []))
    = some ⟨some 0#3, some 2#4, none, []⟩ := by decide

/-! ## ENCODE (95_test_vectors.md 2.2) -/

theorem test_encode_bytes : [0xFFFFFFFFFFFFFFFF#64, 64#64, 0xFFFFFFFFFFFFFED4#64, int64Min].map encodedBytes
    = [[0x41#8], [0xC0#8, 0x00#8], [0xAC#8, 0x42#8],
       [0x80#8, 0x80#8, 0x80#8, 0x80#8, 0x80#8, 0x80#8, 0x80#8, 0x80#8, 0x80#8, 0x41#8]] := by decide
/-- The exact fit, and POS = LEN. -/
theorem test_encode_capacity : results (exec .encode (oneCodec (idleWith (some 300#64) (some 0) (some 2)) []))
      = some ⟨some 0#3, some 2#4, none, [(0, 0xAC#8), (1, 0x02#8)]⟩ ∧
    results (exec .encode (oneCodec (idleWith (some 300#64) (some 5) (some 5)) [])) = some ⟨some 1#3, none, none, []⟩ := by
  decide

/-! ## DECODE (95_test_vectors.md 2.3) -/

theorem test_decode_at_1 : results (exec .decode (oneCodec (idleWith none (some 1) (some 4))
      (bytesAt0 [0x99#8, 0xAC#8, 0x02#8, 0x41#8])))
    = some ⟨some 0#3, some 2#4, some 300#64, bytesAt0 [0x99#8, 0xAC#8, 0x02#8, 0x41#8]⟩ := by decide
/-- `FF ×9, 7F`: the bits 5..1 of the tenth byte are discarded, then neg64 gives 1. -/
theorem test_decode_excess_bits : (results (exec .decode (oneCodec (idleWith none (some 0) (some 10))
      (bytesAt0 (List.replicate 9 0xFF#8 ++ [0x7F#8]))))).map (fun r => (r.status, r.count, r.vout))
    = some (some 0#3, some 10#4, some 1#64) := by decide

/-! ## Reserved words (95_test_vectors.md 2.4) -/

theorem test_reservedOp3 : results (exec .reservedOp3 (oneCodec (idleWith none none none) []))
    = some ⟨some 4#3, none, none, []⟩ := by decide
theorem test_reservedRsvd : results (exec (decodeCommand 0x80#8) (oneCodec (idleWith none none none) []))
    = some ⟨some 4#3, none, none, []⟩ := by decide
/-- As the first command after reset, whatever the OPEN parameters are. -/
theorem test_reserved_after_reset : (results (step (State.reset.withFetchWord 8 3))).map (fun r => r.status) = some (some 4#3) :=
  rfl

/-! ## Wire bytes (R35, by hand) -/

theorem test_wireContinuation : engineOf (exec (.wireContinuation 0x2C#7) (oneCodec (decodingAt 0 2 .accumulating) []))
    = some (.decoding { phase := .accumulating, acc := 0x2C#64, off := 7, k := 1, sign := false, base := 0, limit := 2 }) := by
  decide
theorem test_wireFinal : engineOf (exec (.wireFinal true 2#6) (oneCodec (decodingAt 1 2 .accumulating) []))
    = some (.decoding { phase := .done, acc := 0x100#64, off := 7, k := 2, sign := true, base := 0, limit := 2 }) := by
  decide

/-! ## Command language (30_encoding.md R84, R85; 95_test_vectors.md P1, P3) -/

theorem test_read_encode : readLine ['E', 'N', 'C', 'O', 'D', 'E', ' ', '-', '3', '0', '0', ',', ' ', '2', ' ', ';', 'x']
    = some (some (.encodeAt (-300) 2)) := by decide
theorem test_line_events : lineEvents 0 (.encodeAt (-300) 2)
    = [.write 0 .vin 0xFFFFFFFFFFFFFED4, .write 0 .pos 2, .write 0 .cmd 0] := by decide
theorem test_expand_pokes : (expand (.pokes 0 [0x00#8, 0x41#8])).flatMap (lineEvents 0)
    = lineEvents 0 (.pokes 0 [0x00#8, 0x41#8]) := by decide

theorem witness_expansion : Line.poke 1 0x41#8 ∈ expand (.pokes 0 [0x00#8, 0x41#8]) := by decide

/-! ## Witnesses: each shows that a statement's hypotheses can be met, its clauses at their boundaries -/

theorem witness_roundTrips : (Instr.reservedRsvd 63#6 3#2).isCommand = true ∧ (Instr.reservedRsvd 63#6 3#2).wellFormed = true ∧
    (Instr.wireFinal true 63#6).isCommand = false ∧ (Instr.wireContinuation 127#7).isCommand = false := by decide

theorem witness_stepRunsCommandWord : ∃ (s : State) (w : Byte) (i : Instr),
    s.core.cmd = some w ∧ s.core.engine = .idle ∧ decodeCommand w = i :=
  ⟨oneCodec { Codec.reset with cmd := some 0x02#8 } [], 0x02#8, .decode, by decide⟩

theorem witness_placedWordRunsNext : decodeTableWord 8 0 = some .encode ∧
    decodeTableWord 8 255 = some (.reservedRsvd 63#6 3#2) ∧ decodeTableWord 8 256 = none := by decide

theorem witness_stepRunsWireByte : ∃ (s t : State) (i : Nat) (rest : List Event) (d : DecState) (b : Byte),
    s.core.cmd = none ∧ s.script = .advance i :: rest ∧ select i { s with script := rest } = some t ∧
    t.core.engine = .decoding d ∧ d.phase = .accumulating ∧ d.base + d.k < d.limit ∧
    d.base + d.k < 2 ^ s.addrBits ∧ s.buf.read (d.base + d.k) = some b :=
  ⟨{ oneCodec (decodingAt 0 1 .accumulating) [(0, 0x41#8)] with script := [.advance 0] },
    oneCodec (decodingAt 0 1 .accumulating) [(0, 0x41#8)], 0, [],
    { phase := .accumulating, acc := 0#64, off := 0, k := 0, sign := false, base := 0, limit := 1 }, 0x41#8, by decide⟩

theorem witness_idle : (oneCodec (idleWith none none none) []).core.engine = .idle := by decide

theorem witness_sizeResult : ∃ (s : State) (v : Word), s.core.engine = .idle ∧ s.core.vin = some v :=
  ⟨oneCodec (idleWith (some int64Min) none none) [], int64Min, by decide⟩

/-- Both ends of the table of R76: n = 1 at 63 and n = 10 at INT64_MIN, and what lies just outside. -/
theorem witness_sizeAgainstMagnitude : encodedSize 63#64 = 1 ∧ encodedSize 64#64 ≠ 1 ∧ encodedSize int64Min = 10 ∧
    encodedSize 0x3FFFFFFFFFFFFFFF#64 ≠ 10 := by decide

/-- VIN = 300 at POS = 0: an exact fit, and one byte short of it. -/
theorem witness_encodeResult : ∃ (s : State) (v : Word) (p len : Nat), s.core.engine = .idle ∧ s.core.vin = some v ∧
    s.core.pos = some p ∧ s.core.len = some len ∧ len ≤ 2 ^ s.addrBits ∧ p + encodedSize v ≤ len ∧ 1 < encodedSize v :=
  ⟨oneCodec (idleWith (some 300#64) (some 254) (some 256)) [], 300#64, 254, 256, by decide⟩

theorem witness_encodeBufferTooSmall : ∃ (s u : State) (v : Word) (p q len : Nat), s.core.engine = .idle ∧
    u.core.engine = .idle ∧ s.core.vin = some v ∧ u.core.vin = some v ∧ s.core.pos = some p ∧ u.core.pos = some q ∧
    s.core.len = some len ∧ u.core.len = some len ∧ len ≤ 2 ^ s.addrBits ∧ len ≤ 2 ^ u.addrBits ∧
    capacity p len < encodedSize v ∧ capacity p len = 1 ∧ capacity q len = 0 ∧ len < q :=
  ⟨oneCodec (idleWith (some 300#64) (some 0) (some 1)) [], oneCodec (idleWith (some 300#64) (some 2) (some 1)) [],
    300#64, 0, 2, 1, by decide⟩

/-- A successful ENCODE and a SIZE: the hypotheses of EncodeFrame, SizeAndEncodeAgree, EncodeEmitsCanonical and
RepetitionChangesNothing. -/
theorem witness_encodeSucceeds : ∃ (s t u : State) (v : Word) (p len : Nat), s.core.vin = some v ∧ s.core.pos = some p ∧
    s.core.len = some len ∧ exec .encode s = .next t ∧ t.core.status = some 0#3 ∧ exec .size s = .next u ∧
    Memory.wf s.buf :=
  ⟨oneCodec (idleWith (some 1#64) (some 0) (some 1)) [], _, _, 1#64, 0, 1, rfl, rfl, rfl, rfl, rfl, rfl, by decide⟩

/-- EncodeFrame on the other outcome, at capacity 0. -/
theorem witness_encodeFrame_tooSmall : ∃ (s t : State), s.core.vin = some 1#64 ∧ s.core.pos = some 0 ∧ s.core.len = some 0 ∧
    exec .encode s = .next t ∧ t.core.status = some 1#3 :=
  ⟨oneCodec (idleWith (some 1#64) (some 0) (some 0)) [], _, rfl, rfl, rfl, rfl, rfl⟩

theorem witness_negationFlipsSignFlag : (63#64 : Word) ≠ 0#64 ∧ (63#64 : Word) ≠ int64Min := by decide

theorem witness_decodeResult : ∃ (s : State) (p len : Nat) (bs : List Byte), s.core.engine = .idle ∧ s.core.pos = some p ∧
    s.core.len = some len ∧ len ≤ 2 ^ s.addrBits ∧ isSequence bs = true ∧ p + bs.length ≤ len ∧
    (∀ k, k < bs.length → s.buf.read (p + k) = bs[k]?) ∧ bs.length = 10 :=
  ⟨oneCodec (idleWith none (some 0) (some 10)) (bytesAt0 (List.replicate 9 0x80#8 ++ [0x01#8])), 0, 10,
    List.replicate 9 0x80#8 ++ [0x01#8], by decide⟩

/-- Nine continuation bytes and then LEN, and POS > LEN. -/
theorem witness_decodeTruncated : ∃ (s u : State) (p q len k : Nat), s.core.engine = .idle ∧ u.core.engine = .idle ∧
    s.core.pos = some p ∧ u.core.pos = some q ∧ s.core.len = some len ∧ u.core.len = some len ∧ len ≤ 2 ^ s.addrBits ∧
    k ≤ 9 ∧ k = 9 ∧ len ≤ p + k ∧ len < q + 0 ∧
    (∀ i, i < k → p + i < len ∧ ∃ b : Byte, s.buf.read (p + i) = some b ∧ b.getLsbD 7 = true) :=
  ⟨oneCodec (idleWith none (some 0) (some 9)) (bytesAt0 (List.replicate 9 0x80#8)),
    oneCodec (idleWith none (some 10) (some 9)) [], 0, 10, 9, 9, rfl, rfl, rfl, rfl, rfl, rfl, by decide, by decide, rfl,
    by decide, by decide, fun i hi => ⟨by omega, 0x80#8, by revert i; decide, by decide⟩⟩

theorem witness_decodeOverlong : ∃ (s : State) (p len : Nat), s.core.engine = .idle ∧ s.core.pos = some p ∧
    s.core.len = some len ∧ len ≤ 2 ^ s.addrBits ∧
    (∀ i, i < 10 → p + i < len ∧ ∃ b : Byte, s.buf.read (p + i) = some b ∧ b.getLsbD 7 = true) :=
  ⟨oneCodec (idleWith none (some 0) (some 10)) (bytesAt0 (List.replicate 10 0x80#8)), 0, 10, rfl, rfl, rfl, by decide,
    fun i hi => ⟨by omega, 0x80#8, by revert i; decide, by decide⟩⟩

/-- The first byte ⊥, and the tenth. -/
theorem witness_decodeUnwrittenCell : ∃ (s u : State) (p len k : Nat), s.core.engine = .idle ∧ u.core.engine = .idle ∧
    s.core.pos = some p ∧ u.core.pos = some p ∧ s.core.len = some len ∧ u.core.len = some len ∧ len ≤ 2 ^ s.addrBits ∧
    k ≤ 9 ∧ k = 9 ∧ p + k < len ∧ s.buf.read (p + k) = none ∧ u.buf.read (p + 0) = none ∧
    (∀ i, i < k → ∃ b : Byte, s.buf.read (p + i) = some b ∧ b.getLsbD 7 = true) :=
  ⟨oneCodec (idleWith none (some 0) (some 10)) (bytesAt0 (List.replicate 9 0x80#8)),
    oneCodec (idleWith none (some 0) (some 10)) [], 0, 10, 9, rfl, rfl, rfl, rfl, rfl, rfl, by decide, by decide, rfl,
    by decide, by decide, by decide, fun i hi => ⟨0x80#8, by revert i; decide, by decide⟩⟩

/-- The state an ENCODE of 1 at 0 leaves, decoded from a state with a larger LEN. -/
theorem witness_decodeInvertsEncode : ∃ (s t u : State) (v : Word) (p len : Nat), s.core.vin = some v ∧
    s.core.pos = some p ∧ exec .encode s = .next t ∧ t.core.status = some 0#3 ∧ u.core.engine = .idle ∧
    u.core.pos = some p ∧ u.core.len = some len ∧ p + encodedSize v ≤ len ∧ len ≤ 2 ^ u.addrBits ∧
    (∀ k, k < encodedSize v → u.buf.read (p + k) = t.buf.read (p + k)) :=
  ⟨oneCodec (idleWith (some 1#64) (some 0) (some 1)) [], _, oneCodec (idleWith none (some 0) (some 256)) [(0, 0x01#8)],
    1#64, 0, 256, rfl, rfl, rfl, rfl, rfl, rfl, rfl, by decide, by decide, by decide⟩

/-- A canonical sequence and a padded one. -/
theorem witness_canonical : isSequence [0x41#8] = true ∧ canonical [0x41#8] = true ∧
    isSequence [0x80#8, 0x00#8] = true ∧ canonical [0x80#8, 0x00#8] = false := by decide

/-- Repetition: a DECODE that answers a next state. -/
theorem witness_repetition : ∃ s t : State, exec .decode s = .next t :=
  ⟨oneCodec (idleWith none (some 0) (some 1)) [(0, 0x01#8)], _, rfl⟩

/-- The wire rows: k = 8 and k = 9 inside the range, and the range ended. -/
theorem witness_wireBytes : ∃ (s u w : State) (d e f : DecState), s.core.engine = .decoding d ∧ d.phase = .accumulating ∧
    d.base + d.k < d.limit ∧ d.k < 9 ∧ d.k = 8 ∧ u.core.engine = .decoding e ∧ e.phase = .accumulating ∧
    e.base + e.k < e.limit ∧ e.k = 9 ∧ w.core.engine = .decoding f ∧ f.phase = .accumulating ∧ f.limit ≤ f.base + f.k :=
  ⟨oneCodec (decodingAt 8 10 .accumulating) [], oneCodec (decodingAt 9 10 .accumulating) [],
    oneCodec (decodingAt 9 9 .accumulating) [], decAt 8 10 .accumulating, decAt 9 10 .accumulating, decAt 9 9 .accumulating, rfl, rfl, by decide, by decide, rfl, rfl, rfl, by decide, rfl,
    rfl, rfl, by decide⟩

/-- Where no DECODE accumulates: an idle instance, an ENCODE, a decoder that is DONE. -/
theorem witness_wireByteElsewhere : (∀ d : DecState, (oneCodec Codec.reset []).core.engine = .decoding d → d.phase ≠ .accumulating) ∧
    (∀ d : DecState, (oneCodec (encodingAt 0 1#64) []).core.engine = .decoding d → d.phase ≠ .accumulating) ∧
    (∀ d : DecState, (oneCodec (decodingAt 1 1 .done) []).core.engine = .decoding d → d.phase ≠ .accumulating) :=
  ⟨nofun, nofun, fun d h hp => by cases h; cases hp⟩

/-- Every clause of the state machine: k = 8 and 9 on either kind of byte, the range ended, DONE and both failures. -/
theorem witness_decoderStateMachine :
    (∃ d, (oneCodec (decodingAt 8 10 .accumulating) []).core.engine = .decoding d ∧ d.Wf 8 ∧ d.phase = .accumulating ∧
      d.base + d.k < d.limit ∧ d.k < 9) ∧
    (∃ d, (oneCodec (decodingAt 9 10 .accumulating) []).core.engine = .decoding d ∧ d.Wf 8 ∧ d.phase = .accumulating ∧
      d.base + d.k < d.limit ∧ d.k = 9) ∧
    (bytesAt0 (List.replicate 10 0x80#8)).read 9 = some 0x80#8 ∧ (0x80#8 : Byte).getLsbD 7 = true ∧
    (bytesAt0 (List.replicate 10 0x41#8)).read 9 = some 0x41#8 ∧ (0x41#8 : Byte).getLsbD 7 = false ∧
    (∃ d, (oneCodec (decodingAt 9 9 .accumulating) []).core.engine = .decoding d ∧ d.Wf 8 ∧ d.phase = .accumulating ∧
      d.limit ≤ d.base + d.k) ∧
    (∃ d, (oneCodec (decodingAt 10 10 .done) []).core.engine = .decoding d ∧ d.Wf 8 ∧ d.phase = .done) ∧
    (∃ d, (oneCodec (decodingAt 9 9 (.failed .truncated)) []).core.engine = .decoding d ∧ d.Wf 8 ∧
      d.phase = .failed .truncated) ∧
    (∃ d, (oneCodec (decodingAt 9 10 (.failed .overlong)) []).core.engine = .decoding d ∧ d.Wf 8 ∧
      d.phase = .failed .overlong) := by
  refine ⟨⟨_, rfl, ?_, rfl, ?_, ?_⟩, ⟨_, rfl, ?_, rfl, ?_, rfl⟩, ?_, ?_, ?_, ?_, ⟨_, rfl, ?_, rfl, ?_⟩, ⟨_, rfl, ?_, rfl⟩,
    ⟨_, rfl, ?_, rfl⟩, ⟨_, rfl, ?_, rfl⟩⟩ <;> first | decide | exact ⟨by decide, by decide, by decide⟩ | exact ⟨by decide, (by decide : 9 ≤ 9)⟩

theorem witness_reservedWords : (0x03#8 : Byte) = 0x03#8 ∧ (0x04#8 : Byte).extractLsb' 2 6 ≠ 0#6 ∧
    (0xFF#8 : Byte).extractLsb' 2 6 ≠ 0#6 := by decide

/-- Each operand alone ⊥. -/
theorem witness_unwrittenOperand : (oneCodec (idleWith none (some 0) (some 1)) []).core.vin = none ∧
    (oneCodec (idleWith (some 0#64) none (some 1)) []).core.pos = none ∧
    (oneCodec (idleWith (some 0#64) (some 0) none) []).core.len = none := by decide

/-- LEN = 2^ADDR_BITS + 1. -/
theorem witness_lenBeyondBuffer : ∃ (s : State) (p len : Nat) (v : Word), s.core.engine = .idle ∧ s.core.pos = some p ∧
    s.core.len = some len ∧ 2 ^ s.addrBits < len ∧ s.core.vin = some v :=
  ⟨oneCodec (idleWith (some 0#64) (some 0) (some 257)) [], 0, 257, 0#64, by decide⟩

theorem witness_busy : (oneCodec (encodingAt 0 1#64) []).core.engine ≠ .idle ∧ Instr.size.isCommand = true := by decide

/-- A next state for each non-storing command and for the wire rows: the frames and ResultsAfterCommand. -/
theorem witness_frames : (∃ t, exec .size (oneCodec (idleWith (some 0#64) none none) []) = .next t) ∧
    (∃ t, exec .decode (oneCodec (idleWith none (some 0) (some 0)) []) = .next t) ∧
    (∃ t, exec .reservedOp3 (oneCodec Codec.reset []) = .next t) ∧
    (∃ t, exec (.reservedRsvd 1#6 0#2) (oneCodec Codec.reset []) = .next t) ∧
    (∃ t, exec (.wireContinuation 0#7) (oneCodec (decodingAt 0 1 .accumulating) []) = .next t) ∧
    (∃ t, exec (.wireFinal false 0#6) (oneCodec (decodingAt 0 1 .accumulating) []) = .next t) :=
  ⟨⟨_, rfl⟩, ⟨_, rfl⟩, ⟨_, rfl⟩, ⟨_, rfl⟩, ⟨_, rfl⟩, ⟨_, rfl⟩⟩

/-- One instance, a script, and the instance selected: the hypotheses of the host's statements for any event. -/
def scripted (c : Codec) (es : List Event) : State := { oneCodec c [] with script := es }

theorem witness_host : (scripted Codec.reset []).core.cmd = none ∧
    (∀ e : Event, select 0 (scripted Codec.reset [e]) = some (scripted Codec.reset [e])) ∧
    (scripted Codec.reset []).core.engine = .idle ∧ 2 ^ 64 - 1 < 2 ^ 64 ∧ 255 < 2 ^ (scripted Codec.reset []).addrBits ∧
    511 < 2 ^ ((scripted Codec.reset []).addrBits + 1) ∧ Codec.reset.status = none :=
  ⟨rfl, fun _ => rfl, rfl, by decide, by decide, by decide, rfl⟩

/-- Results that can be read: behind a SIZE and behind a DECODE. -/
theorem witness_hostReads : results (exec .decode (oneCodec (idleWith none (some 0) (some 1)) [(0, 0x01#8)]))
    = some ⟨some 0#3, some 1#4, some 1#64, [(0, 0x01#8)]⟩ := by decide

/-- The first and the last cell. -/
theorem witness_bufferWrite : 0 < 2 ^ (oneCodec Codec.reset []).addrBits ∧ 255 < 2 ^ (oneCodec Codec.reset []).addrBits := by
  decide

theorem witness_hostWaits : ∃ s t : State, s.core.cmd = none ∧ select 0 s = some t ∧ t.core.engine ≠ .idle ∧
    s.script = [.read 0 .status] :=
  ⟨scripted (encodingAt 0 1#64) [.read 0 .status], _, rfl, rfl, by decide, rfl⟩

/-- A reset and a read of the buffer wait too. -/
theorem witness_hostWaits_all : ∃ s t u v : State, s.core.cmd = none ∧ firstBusy s = some 0 ∧ s.script = [.peek 0] ∧
    step s = .next u ∧ t.core.cmd = none ∧ firstBusy t = some 0 ∧ t.script = [.reset] ∧ step t = .next v :=
  ⟨scripted (encodingAt 0 1#64) [.peek 0], scripted (encodingAt 0 1#64) [.reset], _, _, rfl, rfl, rfl, rfl, rfl, rfl, rfl, rfl⟩

/-- R60: `[start ENCODE, peek]`, by hand: the read comes after the command's last access and so gives its new byte. -/
theorem test_peek_after_completion : (results (runTurns [0, 0] (oneCodec (encodingAt 0 1#64) []))).map (fun r => r.buf)
    = some [(0, 0x01#8)] ∧
    step (scripted (encodingAt 0 1#64) [.peek 0]) = advanceAt 0 (scripted (encodingAt 0 1#64) [.peek 0]) :=
  ⟨by decide, rfl⟩

/-- The first cell, the last, and the first that does not exist; a written cell and one that is ⊥. -/
theorem witness_hostCells : (scripted Codec.reset [.poke 255 0#8]).script = [.poke 255 0#8] ∧
    255 < 2 ^ (scripted Codec.reset []).addrBits ∧ 2 ^ (scripted Codec.reset []).addrBits ≤ 256 ∧
    firstBusy (scripted Codec.reset [.peek 0]) = none ∧ (oneCodec Codec.reset [(0, 0x41#8)]).buf.read 0 = some 0x41#8 ∧
    (scripted Codec.reset [.peek 0]).buf.read 0 = none := by decide

/-- A start of each kind of command: an exact fit, one byte short of it, a DECODE, and one without an access. -/
theorem witness_hostStarts : (∀ (c : Codec) (w : Byte), select 0 (scripted c [.start 0 w]) = some (scripted c [.start 0 w])) ∧
    decodeCommand 0x00#8 = .encode ∧ decodeCommand 0x02#8 = .decode ∧ decodeCommand 0x01#8 ≠ .encode ∧
    decodeCommand 0x01#8 ≠ .decode ∧ (idleWith (some 300#64) (some 254) (some 256)).engine = .idle ∧
    254 + encodedSize 300#64 ≤ 256 ∧ capacity 255 256 < encodedSize 300#64 :=
  ⟨fun _ _ => rfl, by decide, by decide, by decide, by decide, rfl, by decide, by decide⟩

theorem witness_reset : ∃ s : State, s.core.cmd = none ∧ s.script = [.reset] ∧ firstBusy s = none ∧ s.core.vin = some 1#64 :=
  ⟨scripted (idleWith (some 1#64) none none) [.reset], rfl, rfl, rfl, rfl⟩

/-- A state with the invariant that has a next step, behind a DECODE that ended OK. -/
theorem witness_invariant : ∃ s t : State, s.Inv ∧ s.core.count = some 10#4 ∧ step s = .next t := by
  refine ⟨{ oneCodec { Codec.reset with status := some 0#3, count := some 10#4, vout := some 1#64 } [(255, 0x01#8)] with
    script := [.poke 255 0x02#8] }, _, ⟨by decide, by decide, ?_⟩, rfl, rfl⟩
  intro c hc
  have hc' : c = { Codec.reset with status := some 0#3, count := some 10#4, vout := some 1#64 } := by
    simpa [State.codecs, oneCodec, State.resetWith] using hc
  subst hc'
  refine ⟨nofun, nofun, ?_, ?_, fun _ => by decide, fun _ _ => rfl, trivial⟩
  · intro x hx; cases hx; decide
  · intro n hn; cases hn; decide

theorem witness_record : (recordStop (.fault .unwritten) (oneCodec Codec.reset [])).record = some (.fault .unwritten) ∧
    (∃ f, step (scripted Codec.reset [.read 0 .status]) = .fault f) ∧
    (∃ r, step (scripted Codec.reset [.read 0 .cmd]) = .refused r) ∧ (scripted Codec.reset []).record = none :=
  ⟨rfl, ⟨_, rfl⟩, ⟨_, rfl⟩, rfl⟩

/-- Two running ENCODEs of one byte each, at neighbouring cells. -/
def twoEncodes : State := { State.resetWith 8 1 with core := encodingAt 0 1#64, after := [encodingAt 1 1#64] }

/-- Two instances: an event that names the second, a POKE, a read of the buffer, and a word in CMD. -/
theorem witness_otherInstances :
    (∃ t, step { State.resetWith 8 1 with script := [.write 1 .vin 5] } = .next t) ∧ (Event.write 1 .vin 5).names = some 1 ∧
    (∃ t, step { State.resetWith 8 1 with script := [.poke 0 0#8] } = .next t) ∧
    (∃ t, step { State.resetWith 8 1 with script := [.peek 0], buf := [(0, 0#8)] } = .next t) ∧
    (∃ t, step ((State.resetWith 8 1).withFetchWord 8 3) = .next t) ∧
    (∃ t, step twoEncodes = .next t) ∧ firstBusy twoEncodes = some 0 ∧ firstBusy (State.resetWith 8 1) = none :=
  ⟨⟨_, rfl⟩, rfl, ⟨_, rfl⟩, ⟨_, rfl⟩, ⟨_, rfl⟩, ⟨_, rfl⟩, rfl, rfl⟩

theorem witness_bounded : ∃ s t : State, s.core.engine.Wf s.addrBits ∧ s.core.engine ≠ .idle ∧ advance s = .next t ∧
    s.core.engine.turnsLeft = 11 :=
  ⟨oneCodec (decodingAt 0 256 .accumulating) [(0, 0x80#8)], _, ⟨by decide, by decide, by decide⟩, by decide, rfl, by decide⟩

theorem sizeOfMagnitude_one : sizeOfMagnitude 1#64 = 1 := by decide

theorem encodingAt_wf (p : Nat) (h : p < 256) : (encodingAt p 1#64).Wf 8 :=
  ⟨nofun, nofun, nofun, nofun, nofun, nofun,
    ⟨by show p + 0 + sizeOfMagnitude 1#64 ≤ 2 ^ 8; rw [sizeOfMagnitude_one]; omega,
      by show 0 + sizeOfMagnitude 1#64 ≤ 10; decide⟩⟩

theorem encodingAt_writeSet {p a : Nat} (h : (encodingAt p 1#64).engine.writeSet a) : a = p := by
  rcases h with (h : p ≤ a ∧ a < p + 0) | (h : p + 0 ≤ a ∧ a < p + 0 + sizeOfMagnitude 1#64)
  · omega
  · rw [sizeOfMagnitude_one] at h; omega

theorem encodingAt_readSet (m : Memory) (p a : Nat) : ¬ (encodingAt p 1#64).engine.readSet m a := fun h => h.elim id id

theorem encodingAt_disjoint (m : Memory) {p q : Nat} (h : p ≠ q) :
    (encodingAt p 1#64).engine.Disjoint m (encodingAt q 1#64).engine := fun a =>
  ⟨fun ha => ⟨fun hb => h ((encodingAt_writeSet ha).symm.trans (encodingAt_writeSet hb)), encodingAt_readSet m q a⟩,
    fun _ => encodingAt_readSet m p a⟩

theorem encodingAt_disjointAhead (m : Memory) {p q : Nat} (h : p ≠ q) :
    (encodingAt p 1#64).engine.DisjointAhead m (encodingAt q 1#64).engine := fun _ =>
  ⟨fun ha => ⟨fun hb => h ((encodingAt_writeSet (.inr ha)).symm.trans (encodingAt_writeSet (.inr hb))), nofun⟩, fun _ => nofun⟩

theorem twoEncodes_inv : twoEncodes.Inv := by
  refine ⟨by decide, by decide, fun c hc => ?_⟩
  have hc' : c = encodingAt 0 1#64 ∨ c = encodingAt 1 1#64 := by
    simpa [twoEncodes, State.codecs, State.resetWith] using hc
  rcases hc' with rfl | rfl <;> exact encodingAt_wf _ (by decide)

theorem twoEncodes_pairs {P : Codec → Codec → Prop} (h1 : P (encodingAt 0 1#64) (encodingAt 1 1#64))
    (h2 : P (encodingAt 1 1#64) (encodingAt 0 1#64)) (i j : Nat) (c d : Codec) (hij : i ≠ j)
    (hc : twoEncodes.codecs[i]? = some c) (hd : twoEncodes.codecs[j]? = some d) : P c d := by
  match i, j, hc, hd with
  | 0, 1, hc, hd => cases hc; cases hd; exact h1
  | 1, 0, hc, hd => cases hc; cases hd; exact h2
  | 0, 0, _, _ => exact absurd rfl hij
  | 1, 1, _, _ => exact absurd rfl hij
  | 0, j + 2, _, hd => cases hd
  | 1, j + 2, _, hd => cases hd
  | i + 2, _, hc, _ => cases hc

theorem twoEncodes_raceFree : twoEncodes.RaceFree :=
  twoEncodes_pairs (P := fun c d => c.engine.Disjoint twoEncodes.buf d.engine) (encodingAt_disjoint _ (by decide))
    (encodingAt_disjoint _ (by decide))

theorem twoEncodes_disjointAhead : twoEncodes.DisjointAhead :=
  twoEncodes_pairs (P := fun c d => c.engine.DisjointAhead twoEncodes.buf d.engine)
    (encodingAt_disjointAhead _ (by decide)) (encodingAt_disjointAhead _ (by decide))

theorem witness_disjoint : ∃ (s t u : State) (c d : Codec), s.codecs[0]? = some c ∧ s.codecs[1]? = some d ∧
    c.engine.DisjointAhead s.buf d.engine ∧ s.Inv ∧ advanceAt 0 s = .next t ∧ advanceAt 1 t = .next u :=
  ⟨twoEncodes, _, _, _, _, rfl, rfl, encodingAt_disjointAhead _ (by decide), twoEncodes_inv, rfl, rfl⟩

/-- Two commands that do not race, and a cell neither accesses. -/
theorem witness_raceFree : ∃ s t u : State, s.Inv ∧ s.RaceFree ∧ advanceAt 0 s = .next t ∧ s.PokeSafe 2 ∧
    bufWrite s 2 0x55#8 = .next u := by
  refine ⟨twoEncodes, _, _, twoEncodes_inv, twoEncodes_raceFree, rfl, fun c hc => ?_, rfl⟩
  have hc' : c = encodingAt 0 1#64 ∨ c = encodingAt 1 1#64 := by
    simpa [twoEncodes, State.codecs, State.resetWith] using hc
  rcases hc' with rfl | rfl <;>
    exact ⟨fun h => absurd (encodingAt_writeSet h) (by decide), encodingAt_readSet _ _ _⟩

theorem witness_anyOrder : ∃ s t : State, s.Inv ∧ s.DisjointAhead ∧ [0, 1].Perm [1, 0] ∧ runTurns [0, 1] s = .next t :=
  ⟨twoEncodes, _, twoEncodes_inv, twoEncodes_disjointAhead, List.Perm.swap 1 0 [], rfl⟩

/-- A DECODE that has read one byte and goes on. -/
theorem witness_accessSets : ∃ s t : State, s.core.engine.Wf s.addrBits ∧ advance s = .next t ∧ t.core.engine ≠ .idle :=
  ⟨oneCodec (decodingAt 1 9 .accumulating) [(1, 0x80#8)], _, ⟨by decide, by decide, by decide⟩, rfl, nofun⟩

/-- R62: a DECODE at 0 that has already read cell 0 and an ENCODE that writes cell 0 race, and a POKE of cell 0 is no safe one. -/
theorem test_race_behind_cursor :
    ¬ (encodingAt 0 1#64).engine.Disjoint [(0, 0x80#8)] (decodingAt 1 9 .accumulating).engine ∧
    ¬ (oneCodec (decodingAt 1 9 .accumulating) [(0, 0x80#8)]).PokeSafe 0 := by
  have hr : ∀ m, (decodingAt 1 9 .accumulating).engine.readSet m 0 := fun m => .inl ⟨by decide, by decide⟩
  refine ⟨fun h => ((h 0).1 (.inr ⟨by decide, by decide⟩)).2 (hr _), fun h => (h _ ?_).2 (hr _)⟩
  simp [State.codecs, oneCodec, State.resetWith]

/-- R57: a DECODE at 0 does not read behind its final byte, here cell 1, although LEN is 9. -/
theorem test_mayRead_stops : ¬ (decodingAt 0 9 .accumulating).engine.mayRead [(0, 0x41#8)] 1 := by
  rintro ⟨-, -, -, h⟩
  obtain ⟨b, hb, hc⟩ := h 0 (Nat.le_refl 0) Nat.one_pos
  cases hb
  exact absurd hc (by decide)

theorem witness_pokeOutside : ∃ (s : State) (a : Nat), s.Inv ∧ a < 2 ^ s.addrBits ∧ ¬ s.core.engine.mayWrite a ∧
    ¬ s.core.engine.mayRead s.buf a ∧ s.core.engine ≠ .idle := by
  refine ⟨oneCodec (encodingAt 0 1#64) [], 1, ⟨by decide, by decide, fun c hc => ?_⟩, by decide, ?_, nofun, nofun⟩
  · have hc' : c = encodingAt 0 1#64 := by simpa [State.codecs, oneCodec, State.resetWith] using hc
    exact hc' ▸ encodingAt_wf 0 (by decide)
  · intro (h : 0 + 0 ≤ 1 ∧ 1 < 0 + 0 + sizeOfMagnitude 1#64)
    rw [sizeOfMagnitude_one] at h
    omega

end Sys2Proof.Tests
end

section
/-! The obligations about the shared buffer (spec/20_memory.md), from the laws of `bufWrite` and `Memory`. -/

namespace Sys2Proof.Machine

/-- Settles O45: a write inside BUF succeeds and replaces the buffer alone (`bufWrite_of_lt`); the two read laws of `Memory.write` give
the cell written and every other cell. -/
theorem bufferWriteSetsOneCell : Obligations.BufferWriteSetsOneCell := by
  intro s a b ha
  refine ⟨{ s with buf := s.buf.write a b }, bufWrite_of_lt b ha, rfl, ?cellWritten, ?otherCells⟩
  case cellWritten => exact Memory.read_write_same s.buf a b
  case otherCells => exact fun _ hx => Memory.read_write_other s.buf b hx

end Sys2Proof.Machine
end

section
/-! The obligation about the reserved command words (spec/30_encoding.md, R82). -/

namespace Sys2Proof

/-- R82: a nonzero RSVD field decides the row, whatever OP is. -/
theorem decodeCommand_of_rsvd_ne_zero {w : Byte} (h : cmdRsvd w ≠ 0#6) :
    decodeCommand w = .reservedRsvd (cmdRsvd w) (cmdOp w) := if_neg h

end Sys2Proof

namespace Sys2Proof.Machine

/-- On an idle instance `finish` leaves the engine as it was, so it replaces the three result registers alone. -/
theorem finish_of_idle {s : State} (h : s.core.engine = .idle) (st : Status) (n : Option (BitVec 4)) (v : Option Word) :
    finish st n v s = { s with core := { s.core with status := some (statusCode st), count := n, vout := v } } := by
  unfold finish
  rw [← h]

theorem illegalCommand_of_idle {s : State} (h : s.core.engine = .idle) : illegalCommand s =
    .next { s with core := { s.core with status := some 4#3, count := none, vout := none } } := by
  calc illegalCommand s = .next (finishError .illegalCommand s) := whenIdle_idle _ h
    _ = .next (finish .illegalCommand none none s) := by rw [finishError_eq]
    _ = _ := by rw [finish_of_idle h]; rfl

/-- Settles O33: every reserved word decodes to one of the two reserved rows, and both rows run `illegalCommand`, whose outcome on an
idle instance is `illegalCommand_of_idle`. -/
theorem reservedWordsAreIllegal : Obligations.ReservedWordsAreIllegal := by
  intro s hidle
  have hop3 : exec .reservedOp3 s = _ := illegalCommand_of_idle hidle
  have hrsvd (rsvd : BitVec 6) (op : BitVec 2) : exec (.reservedRsvd rsvd op) s = _ := illegalCommand_of_idle hidle
  refine ⟨?words, hop3, hrsvd⟩
  case words =>
    rintro w (rfl | hw)
    · rwa [show decodeCommand 0x03#8 = .reservedOp3 by decide]
    · rw [decodeCommand_of_rsvd_ne_zero hw]
      exact hrsvd _ _

end Sys2Proof.Machine
end

section
/-! The obligation on COUNT of SIZE and ENCODE (spec/40_encoder.md, R110): no turn of a running ENCODE changes the STATUS and COUNT it is
going to end with. -/

namespace Sys2Proof.Machine

/-- The STATUS and COUNT that an ENCODE in this state ends with: OK and the bytes emitted plus those to come (R105), or BufferTooSmall and
⊥ (R107). -/
def EncState.finalResults (e : EncState) : Status × Option (BitVec 4) :=
  match e.phase with
  | .writing => (.ok, some (BitVec.ofNat 4 (e.k + sizeOfMagnitude e.m)))
  | .short _ => (.bufferTooSmall, none)
  | .done => (.ok, some (BitVec.ofNat 4 e.k))

section
variable {e : EncState}

theorem EncState.finalResults_writing (h : e.phase = .writing) :
    e.finalResults = (.ok, some (BitVec.ofNat 4 (e.k + sizeOfMagnitude e.m))) := by simp [finalResults, h]

theorem EncState.finalResults_short {left : Nat} (h : e.phase = .short left) :
    e.finalResults = (.bufferTooSmall, none) := by simp [finalResults, h]

theorem EncState.finalResults_done (h : e.phase = .done) :
    e.finalResults = (.ok, some (BitVec.ofNat 4 e.k)) := by simp [finalResults, h]

theorem Engine.turnsLeft_writing (h : e.phase = .writing) :
    (Engine.encoding e).turnsLeft = sizeOfMagnitude e.m + 1 := by simp [turnsLeft, h]

theorem Engine.turnsLeft_short {left : Nat} (h : e.phase = .short left) :
    (Engine.encoding e).turnsLeft = left + 1 := by simp [turnsLeft, h]

theorem Engine.turnsLeft_done (h : e.phase = .done) : (Engine.encoding e).turnsLeft = 1 := by simp [turnsLeft, h]

theorem Engine.turnsLeft_encoding_pos (e : EncState) : 1 ≤ (Engine.encoding e).turnsLeft := by
  cases h : e.phase with
  | writing => rw [turnsLeft_writing h]; omega
  | short left => rw [turnsLeft_short h]; omega
  | done => rw [turnsLeft_done h]

end

/-- A turn of an ENCODE either goes on, one turn nearer the end and with the same final results, or delivers these results. -/
theorem encodeTick_finalResults {e : EncState} {s t : State} (h : encodeTick e s = .next t) :
    (∃ e', t.core.engine = .encoding e' ∧ (Engine.encoding e').turnsLeft + 1 = (Engine.encoding e).turnsLeft ∧
      e'.finalResults = e.finalResults) ∨
    (t.core.engine = .idle ∧ t.core.status = some (statusCode e.finalResults.1) ∧ t.core.count = e.finalResults.2) := by
  obtain ⟨hp, hf, -, rfl⟩ | ⟨hp, hf, -, rfl⟩ | ⟨hp, rfl⟩ | ⟨left, hp, -, rfl⟩ | ⟨hp, rfl⟩ := encodeTick_cases h
  · refine .inl ⟨_, rfl, ?_, ?_⟩
    · rw [Engine.turnsLeft_done rfl, Engine.turnsLeft_writing hp, sizeOfMagnitude_final hf]
    · rw [EncState.finalResults_done rfl, EncState.finalResults_writing hp, sizeOfMagnitude_final hf]
  · refine .inl ⟨_, rfl, ?_, ?_⟩
    · rw [Engine.turnsLeft_writing rfl, Engine.turnsLeft_writing hp, sizeOfMagnitude_continuation hf]
    · rw [EncState.finalResults_writing rfl, EncState.finalResults_writing hp, sizeOfMagnitude_continuation hf,
        Nat.add_right_comm, Nat.add_assoc]
  · exact .inr (by rw [EncState.finalResults_short hp]; exact ⟨rfl, rfl, rfl⟩)
  · refine .inl ⟨_, rfl, ?_, ?_⟩
    · rw [Engine.turnsLeft_short rfl, Engine.turnsLeft_short hp]
    · rw [EncState.finalResults_short rfl, EncState.finalResults_short hp]
  · exact .inr (by rw [EncState.finalResults_done hp]; exact ⟨rfl, rfl, rfl⟩)

/-- An ENCODE that is given all the turns it still takes delivers its final results. -/
theorem drain_finalResults {turns : Nat} {e : EncState} {s t : State} (he : s.core.engine = .encoding e)
    (hturns : (Engine.encoding e).turnsLeft ≤ turns) (h : drain turns s = .next t) :
    t.core.status = some (statusCode e.finalResults.1) ∧ t.core.count = e.finalResults.2 := by
  induction turns generalizing e s with
  | zero => have := Engine.turnsLeft_encoding_pos e; omega
  | succ n ih =>
    rw [drain_busy (by simp [he]), andThen_eq_next] at h
    obtain ⟨u, hu, hrest⟩ := h
    have htick : encodeTick e s = .next u := by simpa [tick, he] using hu
    rcases encodeTick_finalResults htick with ⟨e', he', hleft, hsame⟩ | ⟨hidle, hresults⟩
    · rw [← hsame]
      exact ih he' (by omega) hrest
    · rw [drain_idle hidle] at hrest
      cases hrest
      exact hresults

/-- ENCODE answers a next state exactly when the instance is idle, its checks pass and its loop completes (R105). -/
theorem exec_encode_eq_next {s t : State} : exec .encode s = .next t ↔
    s.core.engine = .idle ∧ ∃ u, beginEncode s = .next u ∧ drain maxTicks u = .next t := by
  show whenIdle s (fun x => andThen (beginEncode x) (drain maxTicks)) = _ ↔ _
  rw [whenIdle_eq_next, andThen_eq_next]

/-- SIZE answers a next state exactly when the instance is idle and VIN holds a value (R109). -/
theorem exec_size_eq_next {s u : State} : exec .size s = .next u ↔
    s.core.engine = .idle ∧ ∃ v, s.core.vin = some v ∧ u = finishOk (encodedSize v) none s := by
  show whenIdle s (fun x => withValue x.core.vin fun v => .next (finishOk (encodedSize v) none x)) = _ ↔ _
  simp only [whenIdle_eq_next, withValue_eq_next, Host.Outcome.next.injEq, eq_comm (a := u)]

/-- Every ENCODE that completes ends in one of two ways: with OK and the size of VIN, or with BufferTooSmall (R105, R107). The turns of
`maxTicks` are enough for either. -/
theorem encode_results {s t : State} {v : Word} (hv : s.core.vin = some v) (h : exec .encode s = .next t) :
    (t.core.status = some (statusCode .ok) ∧ t.core.count = some (BitVec.ofNat 4 (encodedSize v))) ∨
    (t.core.status = some (statusCode .bufferTooSmall) ∧ t.core.count = none) := by
  obtain ⟨-, u, hbegin, hdrain⟩ := exec_encode_eq_next.1 h
  obtain ⟨v', p, len, hv', -, -, -, hcase⟩ := beginEncode_cases hbegin
  obtain rfl : v' = v := Option.some.inj (hv'.symm.trans hv)
  have hsize : encodedSize v' ≤ 10 := sizeOfMagnitude_le _
  obtain ⟨hsmall, rfl⟩ | ⟨-, rfl⟩ := hcase
  · have hwritten : writtenOnFailure (capacity p len) s.draws ≤ 10 :=
      (writtenOnFailure_le _ _).trans (hsmall.le.trans hsize)
    have hresults := drain_finalResults rfl (by rw [Engine.turnsLeft_short rfl]; exact Nat.succ_le_succ hwritten) hdrain
    rw [EncState.finalResults_short rfl] at hresults
    exact .inr hresults
  · have hresults := drain_finalResults rfl (by rw [Engine.turnsLeft_writing rfl]; exact Nat.succ_le_succ hsize) hdrain
    rw [EncState.finalResults_writing rfl, Nat.zero_add] at hresults
    exact .inl hresults

/-- SIZE that completes leaves the size of VIN in COUNT (R109). -/
theorem size_count {s u : State} {v : Word} (hv : s.core.vin = some v) (h : exec .size s = .next u) :
    u.core.count = some (BitVec.ofNat 4 (encodedSize v)) := by
  obtain ⟨-, v', hv', rfl⟩ := exec_size_eq_next.1 h
  obtain rfl : v' = v := Option.some.inj (hv'.symm.trans hv)
  rfl

/-- Settles O18: of the two ends of `encode_results` STATUS = OK leaves the one with the size of VIN, which is the COUNT of `size_count`. -/
theorem sizeAndEncodeAgree : Obligations.SizeAndEncodeAgree := by
  intro s t u v hv hencode hok hsize
  rcases encode_results hv hencode with ⟨-, hcount⟩ | ⟨hfailed, -⟩
  · exact ⟨hcount, (size_count hv hsize).trans hcount.symm⟩
  · exact absurd (hfailed.symm.trans hok) (by decide)

end Sys2Proof.Machine
end

section
/-! The obligation on DECODE of a terminated sequence (spec/41_decoder.md, R138): what the decoder has accumulated stays the sum of R74
over the bytes consumed so far. -/

namespace Sys2Proof.Machine

/-- The decoder accumulates, and has `m` in its accumulator: the sum of R74 over the `k` bytes consumed, which lies below the offset
7·k of the next group (R34). -/
structure DecState.Accumulated (d : DecState) (m : Nat) : Prop where
  phase : d.phase = .accumulating
  acc : d.acc = BitVec.ofNat 64 m
  off : d.off = 7 * d.k
  below : m < 2 ^ (7 * d.k)

/-- The state a DECODE begins in (R34); it has accumulated nothing. -/
def DecState.initial (p len : Nat) : DecState :=
  { phase := .accumulating, acc := 0#64, off := 0, k := 0, sign := false, base := p, limit := len }

theorem DecState.initial_accumulated (p len : Nat) : (DecState.initial p len).Accumulated 0 := ⟨rfl, rfl, rfl, Nat.one_pos⟩

/-- The pattern a magnitude and a sign flag stand for (R75). -/
def signedPattern (sign : Bool) (m : Nat) : Word := if sign then neg64 (BitVec.ofNat 64 m) else BitVec.ofNat 64 m

theorem carriedValue_eq (bs : List Byte) : carriedValue bs = signedPattern (carriedSign bs) (magnitudeFrom 0 bs) := rfl

/-! ## The closed forms, one byte at a time -/

theorem terminated_singleton (b : Byte) : terminated [b] = true ↔ b.getLsbD 7 = false := by
  simp [terminated, continuationFlag]

theorem terminated_cons {bs : List Byte} (b : Byte) (h : bs ≠ []) :
    terminated (b :: bs) = true ↔ b.getLsbD 7 = true ∧ terminated bs = true := by
  rw [terminated.eq_3 _ _ h, Bool.and_eq_true, continuationFlag]

theorem magnitudeFrom_cons {bs : List Byte} (i : Nat) (b : Byte) (h : bs ≠ []) :
    magnitudeFrom i (b :: bs) = (group7 b).toNat * 2 ^ (7 * i) + magnitudeFrom (i + 1) bs := magnitudeFrom.eq_3 _ _ _ h

theorem carriedSign_cons {bs : List Byte} (b : Byte) (h : bs ≠ []) : carriedSign (b :: bs) = carriedSign bs := by
  rw [carriedSign, carriedSign, List.getLast?_cons_of_ne_nil h]

/-! ## The bytes consumed -/

/-- No byte moves the range of a DECODE: it keeps the POS and LEN it was issued with. -/
theorem consume_range (b : Byte) (d : DecState) : (consume b d).base = d.base ∧ (consume b d).limit = d.limit := by
  unfold consume consumeContinuation
  split
  · split <;> exact ⟨rfl, rfl⟩
  · exact ⟨rfl, rfl⟩

/-- Placing a group above everything accumulated adds it, modulo 2^64 (R131, R137). -/
theorem or_group_eq_add {w m off : Nat} (g : BitVec w) (h : m < 2 ^ off) :
    BitVec.ofNat 64 m ||| (g.setWidth 64 <<< off) = BitVec.ofNat 64 (m + g.toNat * 2 ^ off) := by
  have hsum : m + g.toNat * 2 ^ off = m ||| g.toNat <<< off := by
    rw [Nat.or_comm, ← Nat.shiftLeft_add_eq_or_of_lt h, Nat.shiftLeft_eq, Nat.add_comm]
  apply BitVec.eq_of_toNat_eq
  simp [hsum, Nat.shiftLeft_eq]

/-- A continuation byte below the tenth leaves the decoder accumulating, its group added at the offset (R131). -/
theorem DecState.Accumulated.after_continuation {d : DecState} {m : Nat} {b : Byte} (h : d.Accumulated m)
    (hb : b.getLsbD 7 = true) (hk : d.k < 9) : (consume b d).k = d.k + 1 ∧
      (consume b d).Accumulated (m + (group7 b).toNat * 2 ^ (7 * d.k)) := by
  have hstep : consume b d =
      { d with acc := d.acc ||| ((group7 b).setWidth 64 <<< d.off), off := d.off + 7, k := d.k + 1 } := by
    rw [consume_continuation hb, consumeContinuation, if_pos hk]
  rw [hstep]
  refine ⟨rfl, h.phase, ?acc, ?off, ?below⟩
  case acc =>
    show d.acc ||| _ = _
    rw [h.acc, h.off, or_group_eq_add _ h.below]
  case off => simp only [h.off]; omega
  case below =>
    have hgroup : (group7 b).toNat + 1 ≤ 2 ^ 7 := (group7 b).isLt
    have hbelow := h.below
    calc m + (group7 b).toNat * 2 ^ (7 * d.k) < ((group7 b).toNat + 1) * 2 ^ (7 * d.k) := by linarith
      _ ≤ 2 ^ 7 * 2 ^ (7 * d.k) := Nat.mul_le_mul_right _ hgroup
      _ = 2 ^ (7 * (d.k + 1)) := by rw [← pow_add]; congr 1; omega

/-- A final byte makes the decoder DONE, its value the one of R75 (R132, R133, R137). -/
theorem DecState.Accumulated.after_final {d : DecState} {m : Nat} {b : Byte} (h : d.Accumulated m)
    (hb : b.getLsbD 7 = false) : (consume b d).phase = .done ∧ (consume b d).k = d.k + 1 ∧
      decodedValue (consume b d) = signedPattern (signFlag b) (m + (group6 b).toNat * 2 ^ (7 * d.k)) := by
  rw [consume_final hb]
  refine ⟨rfl, rfl, ?_⟩
  simp only [decodedValue, consumeFinal, h.acc, h.off, or_group_eq_add _ h.below, signedPattern]

/-! ## The turns of a DECODE -/

/-- A DECODE whose next byte is below LEN and holds a value consumes it in one turn (R35). -/
theorem drain_consume {s : State} {d : DecState} {b : Byte} (hphase : d.phase = .accumulating)
    (hlimit : d.base + d.k < d.limit) (hrange : d.limit ≤ 2 ^ s.addrBits) (hread : s.buf.read (d.base + d.k) = some b)
    (n : Nat) : drain (n + 1) (setEngine s (.decoding d)) = drain n (setEngine s (.decoding (consume b d))) := by
  have htick : tick (setEngine s (.decoding d)) = .next (setEngine s (.decoding (consume b d))) := by
    simp only [tick, setEngine_core, decodeTick, hphase, if_neg hlimit.not_ge]
    exact bufRead_of_some _ (hlimit.trans_le hrange) hread
  rw [drain_busy (by simp), htick, andThen_next]

/-- A DECODE that is DONE completes in one turn (R133). -/
theorem drain_done {s : State} {d : DecState} (hphase : d.phase = .done) (n : Nat) :
    drain (n + 1) (setEngine s (.decoding d)) = .next (finishOk d.k (some (decodedValue d)) s) := by
  have htick : tick (setEngine s (.decoding d)) = .next (finishOk d.k (some (decodedValue d)) s) := by
    simp only [tick, setEngine_core, decodeTick, hphase]
    rfl
  rw [drain_busy (by simp), htick, andThen_next, drain_idle rfl]

/-- A DECODE with a terminated sequence at its cursor, given a turn for each byte and one for `finish`, completes with the number of bytes
and the value of R74 and R75. By induction over the sequence, in the cases of `terminated`. -/
theorem drain_sequence {s : State} {d : DecState} {m n : Nat} {bs : List Byte} (h : d.Accumulated m)
    (hterm : terminated bs = true) (hlength : d.k + bs.length ≤ 10) (hlimit : d.base + d.k + bs.length ≤ d.limit)
    (hrange : d.limit ≤ 2 ^ s.addrBits) (hread : ∀ j, j < bs.length → s.buf.read (d.base + d.k + j) = bs[j]?)
    (hturns : bs.length < n) : drain n (setEngine s (.decoding d)) =
      .next (finishOk (d.k + bs.length) (some (signedPattern (carriedSign bs) (m + magnitudeFrom d.k bs))) s) := by
  induction bs using terminated.induct generalizing d m n with
  | case1 => cases hterm
  | case2 b =>
    obtain ⟨n, rfl⟩ := Nat.exists_eq_add_of_le' (show 2 ≤ n from hturns)
    obtain ⟨hdone, hk, hvalue⟩ := h.after_final ((terminated_singleton b).1 hterm)
    rw [drain_consume h.phase hlimit hrange (hread 0 Nat.one_pos), drain_done hdone, hk, hvalue]
    rfl
  | case3 b rest hne ih =>
    obtain ⟨hb, hrest⟩ := (terminated_cons b hne).1 hterm
    have hpos : 0 < rest.length := List.length_pos_of_ne_nil hne
    simp only [List.length_cons] at hlength hlimit hturns hread
    obtain ⟨n, rfl⟩ := Nat.exists_eq_add_of_le' (show 1 ≤ n by omega)
    obtain ⟨hk, hacc⟩ := h.after_continuation hb (by omega)
    obtain ⟨hbase, hlen⟩ := consume_range b d
    have htail : ∀ j, j < rest.length → s.buf.read ((consume b d).base + (consume b d).k + j) = rest[j]? := by
      intro j hj
      rw [hbase, hk, show d.base + (d.k + 1) + j = d.base + d.k + (j + 1) by omega]
      exact hread (j + 1) (by omega)
    have hloop := ih hacc hrest (by omega) (by omega) (by omega) htail (n := n) (by omega)
    rw [drain_consume h.phase (by omega) hrange (hread 0 (Nat.succ_pos _)), hloop, hk, carriedSign_cons b hne,
      magnitudeFrom_cons _ b hne, List.length_cons, Nat.add_assoc m, show d.k + 1 + rest.length = d.k + (rest.length + 1) by omega]

/-- DECODE on an idle instance whose operand checks pass is its loop, from the initial state of R34 (R130). -/
theorem exec_decode_of_idle {s : State} {p len : Nat} (hidle : s.core.engine = .idle) (hpos : s.core.pos = some p)
    (hlen : s.core.len = some len) (hrange : len ≤ 2 ^ s.addrBits) :
    exec .decode s = drain maxTicks (setEngine s (.decoding (DecState.initial p len))) := by
  show whenIdle s (fun t => andThen (beginDecode t) (drain maxTicks)) = _
  rw [whenIdle_idle _ hidle, beginDecode, hpos, withValue_some, hlen, withValue_some, withinRange_le _ hrange, andThen_next]
  rfl

/-- Settles O21: DECODE is its loop from the initial state (`exec_decode_of_idle`), the loop on a terminated sequence ends with its
length and value (`drain_sequence`), and `finish` on an idle instance replaces the result registers alone. -/
theorem decodeResult : Obligations.DecodeResult := by
  intro s p len bs hidle hpos hlen hrange hseq hfits hread
  obtain ⟨hterm, hten⟩ : terminated bs = true ∧ bs.length ≤ 10 := by simpa [isSequence] using hseq
  have hloop := drain_sequence (DecState.initial_accumulated p len) hterm ((Nat.zero_add _).trans_le hten) hfits hrange hread
    (show bs.length < maxTicks from Nat.lt_succ_of_le hten)
  calc exec .decode s = drain maxTicks (setEngine s (.decoding (DecState.initial p len))) :=
        exec_decode_of_idle hidle hpos hlen hrange
    _ = .next (finishOk (0 + bs.length) (some (signedPattern (carriedSign bs) (0 + magnitudeFrom 0 bs))) s) := hloop
    _ = .next (finish .ok (some (BitVec.ofNat 4 bs.length)) (some (carriedValue bs)) s) := by
      rw [Nat.zero_add, Nat.zero_add, finishOk_eq, carriedValue_eq]
    _ = _ := by rw [finish_of_idle hidle]; rfl

end Sys2Proof.Machine
end

section
/-! The obligations on the two failures of DECODE (spec/60_exceptions.md, R163 and R164): the loop up to the byte behind the continuation
bytes is the same in both, and from there either LEN or a tenth continuation byte ends it. -/

namespace Sys2Proof.Machine

/-- A DECODE issued at `p` with LEN `len` accumulates, and byte number `k` is the next one it reads (R34). -/
structure DecState.AtByte (d : DecState) (p len k : Nat) : Prop where
  phase : d.phase = .accumulating
  base : d.base = p
  limit : d.limit = len
  count : d.k = k

theorem DecState.initial_atByte (p len : Nat) : (DecState.initial p len).AtByte p len 0 := ⟨rfl, rfl, rfl, rfl⟩

/-- A continuation byte below the tenth moves the read cursor to the next byte (R131). -/
theorem DecState.AtByte.after_continuation {d : DecState} {p len k : Nat} {b : Byte} (h : d.AtByte p len k)
    (hb : b.getLsbD 7 = true) (hk : k < 9) : (consume b d).AtByte p len (k + 1) := by
  obtain ⟨hphase, hbase, hlimit, rfl⟩ := h
  rw [consume_continuation hb, consumeContinuation, if_pos hk]
  exact ⟨hphase, hbase, hlimit, rfl⟩

/-- A continuation byte as the tenth makes the decoder FAILED(Overlong) (R136). -/
theorem DecState.AtByte.after_tenth_continuation {d : DecState} {p len : Nat} {b : Byte} (h : d.AtByte p len 9)
    (hb : b.getLsbD 7 = true) : (consume b d).phase = .failed .overlong := by
  rw [consume_continuation hb, consumeContinuation, if_neg h.count.not_lt]

/-- `drain_consume`, the cursor given by number. -/
theorem DecState.AtByte.drain_consume {s : State} {d : DecState} {p len k : Nat} {b : Byte} (h : d.AtByte p len k)
    (hlimit : p + k < len) (hrange : len ≤ 2 ^ s.addrBits) (hread : s.buf.read (p + k) = some b) (n : Nat) :
    drain (n + 1) (setEngine s (.decoding d)) = drain n (setEngine s (.decoding (consume b d))) := by
  obtain ⟨hphase, rfl, rfl, rfl⟩ := h
  exact Machine.drain_consume hphase hlimit hrange hread n

/-- A DECODE whose next byte is not below LEN is FAILED(Truncated) after one turn, without a read (R35). -/
theorem DecState.AtByte.drain_exhausted {s : State} {d : DecState} {p len k : Nat} (h : d.AtByte p len k)
    (hlimit : len ≤ p + k) (n : Nat) :
    drain (n + 1) (setEngine s (.decoding d)) = drain n (setEngine s (.decoding (exhausted d))) := by
  obtain ⟨hphase, rfl, rfl, rfl⟩ := h
  have htick : tick (setEngine s (.decoding d)) = .next (setEngine s (.decoding (exhausted d))) := by
    simp only [tick, setEngine_core, decodeTick, hphase, if_pos hlimit]
    rfl
  rw [drain_busy (by simp), htick, andThen_next]

/-- A DECODE that is FAILED completes in one turn, with the status of its failure (R35). -/
theorem drain_failed {s : State} {d : DecState} {why : DecFailure} (hphase : d.phase = .failed why) (n : Nat) :
    drain (n + 1) (setEngine s (.decoding d)) = .next (finishError (failureStatus why) s) := by
  have htick : tick (setEngine s (.decoding d)) = .next (finishError (failureStatus why) s) := by
    simp only [tick, setEngine_core, decodeTick, hphase]
    rfl
  rw [drain_busy (by simp), htick, andThen_next, drain_idle rfl]

/-- DECODE behind `k` ≤ 9 continuation bytes below LEN: its cursor is at byte number `k`, and of the turns of `maxTicks` it has one left
for each byte up to the ninth, one for the tenth and one for `finish`. By induction over the bytes consumed. -/
theorem exec_decode_behind_continuations {s : State} {p len k : Nat} (hidle : s.core.engine = .idle)
    (hpos : s.core.pos = some p) (hlen : s.core.len = some len) (hrange : len ≤ 2 ^ s.addrBits) (hk : k ≤ 9)
    (hcont : ∀ i, i < k → p + i < len ∧ ∃ b : Byte, s.buf.read (p + i) = some b ∧ b.getLsbD 7 = true) :
    ∃ d : DecState, d.AtByte p len k ∧ exec .decode s = drain (9 - k + 2) (setEngine s (.decoding d)) := by
  induction k with
  | zero => exact ⟨_, DecState.initial_atByte p len, exec_decode_of_idle hidle hpos hlen hrange⟩
  | succ k ih =>
    obtain ⟨d, hd, hexec⟩ := ih (Nat.le_of_succ_le hk) fun i hi => hcont i (Nat.lt_succ_of_lt hi)
    obtain ⟨hlimit, b, hread, hb⟩ := hcont k k.lt_succ_self
    refine ⟨consume b d, hd.after_continuation hb hk, ?_⟩
    rw [hexec, show 9 - k + 2 = 9 - (k + 1) + 2 + 1 by omega, hd.drain_consume hlimit hrange hread]

/-- Settles O22: behind the continuation bytes (`exec_decode_behind_continuations`) the cursor is at LEN, so one turn makes the decoder
FAILED(Truncated) and the next one completes the command. -/
theorem decodeTruncated : Obligations.DecodeTruncated := by
  intro s p len k hidle hpos hlen hrange hk hend hcont
  obtain ⟨d, hd, hexec⟩ := exec_decode_behind_continuations hidle hpos hlen hrange hk hcont
  have hfailed : (exhausted d).phase = .failed .truncated := rfl
  calc exec .decode s = drain (9 - k + 2) (setEngine s (.decoding d)) := hexec
    _ = drain (9 - k + 1) (setEngine s (.decoding (exhausted d))) := hd.drain_exhausted hend _
    _ = .next (finish .truncatedEncoding none none s) := by rw [drain_failed hfailed, failureStatus, finishError_eq]
    _ = _ := by rw [finish_of_idle hidle]; rfl

/-- Settles O23: behind the first nine continuation bytes (`exec_decode_behind_continuations`) the tenth makes the decoder
FAILED(Overlong), and the eleventh turn, the last of `maxTicks`, completes the command. -/
theorem decodeOverlong : Obligations.DecodeOverlong := by
  intro s p len hidle hpos hlen hrange hcont
  obtain ⟨d, hd, hexec⟩ := exec_decode_behind_continuations hidle hpos hlen hrange le_rfl
    fun i hi => hcont i (Nat.lt_succ_of_lt hi)
  obtain ⟨hlimit, b, hread, hb⟩ := hcont 9 (Nat.lt_succ_self 9)
  calc exec .decode s = drain 2 (setEngine s (.decoding d)) := hexec
    _ = drain 1 (setEngine s (.decoding (consume b d))) := hd.drain_consume hlimit hrange hread 1
    _ = .next (finish .overlong none none s) := by
      rw [drain_failed (hd.after_tenth_continuation hb), failureStatus, finishError_eq]
    _ = _ := by rw [finish_of_idle hidle]; rfl

end Sys2Proof.Machine
end

section
/-! The obligations about the two encodings (spec/30_encoding.md): a CMD word is RSVD above OP (R80), a wire byte is its flags above
its group (R71, R72), and each decoder takes apart what `encode` puts together. -/

namespace Sys2Proof

/-! ## CMD words -/

@[simp] theorem cmdOp_append (rsvd : BitVec 6) (op : BitVec 2) : cmdOp (rsvd ++ op) = op := BitVec.extractLsb'_append_eq_right

@[simp] theorem cmdRsvd_append (rsvd : BitVec 6) (op : BitVec 2) : cmdRsvd (rsvd ++ op) = rsvd := BitVec.extractLsb'_append_eq_left

/-- The two fields are the whole word (R80). -/
theorem cmdRsvd_append_cmdOp (w : Byte) : cmdRsvd w ++ cmdOp w = w :=
  BitVec.extractLsb'_append_extractLsb' (w := 6) (len := 2)

/-- A word without RSVD is its OP (R81). -/
theorem word_of_cmdRsvd_eq_zero {w : Byte} (h : cmdRsvd w = 0#6) : w = 0#6 ++ cmdOp w := by
  rw [← h, cmdRsvd_append_cmdOp]

/-- A well-formed command is the one its word decodes to (R81, R82). -/
theorem decodeCommand_encode {i : Instr} (hcommand : i.isCommand = true) (hwf : i.wellFormed = true) :
    decodeCommand (encode i) = i := by
  cases i with
  | encode | size | decode | reservedOp3 => rfl
  | reservedRsvd rsvd op =>
    have hrsvd : cmdRsvd (rsvd ++ op) ≠ 0#6 := by simpa [Instr.wellFormed] using hwf
    rw [encode, decodeCommand_of_rsvd_ne_zero hrsvd, cmdRsvd_append, cmdOp_append]
  | wireContinuation | wireFinal => cases hcommand

/-- Every OP, under a zero RSVD field, is a word of its own (R81). -/
theorem encode_decodeCommand_of_op (op : BitVec 2) : encode (decodeCommand (0#6 ++ op)) = 0#6 ++ op ∧
    (decodeCommand (0#6 ++ op)).isCommand = true ∧ (decodeCommand (0#6 ++ op)).wellFormed = true := by
  revert op; decide

/-- Every word is the word of the well-formed command it decodes to (R81, R82). -/
theorem encode_decodeCommand (w : Byte) : encode (decodeCommand w) = w ∧ (decodeCommand w).isCommand = true ∧
    (decodeCommand w).wellFormed = true := by
  by_cases h : cmdRsvd w = 0#6
  · rw [word_of_cmdRsvd_eq_zero h]
    exact encode_decodeCommand_of_op (cmdOp w)
  · rw [decodeCommand_of_rsvd_ne_zero h]
    exact ⟨cmdRsvd_append_cmdOp w, rfl, by simpa [Instr.wellFormed] using h⟩

/-- Settles O2, by the fields of the word: `decodeCommand_encode` reads them back, `encode_decodeCommand` puts them together again. -/
theorem commandWordsRoundTrip : Obligations.CommandWordsRoundTrip :=
  ⟨fun _ => decodeCommand_encode, encode_decodeCommand⟩

/-! ## Wire bytes -/

namespace Machine

theorem continuationByte_bits (g7 : BitVec 7) : (1#1 ++ g7 : Byte).getLsbD 7 = true ∧ group7 (1#1 ++ g7) = g7 :=
  ⟨by revert g7; decide, BitVec.extractLsb'_append_eq_right⟩

theorem finalByte_bits (sign : Bool) (g6 : BitVec 6) : (0#1 ++ BitVec.ofBool sign ++ g6 : Byte).getLsbD 7 = false ∧
    signFlag (0#1 ++ BitVec.ofBool sign ++ g6) = sign ∧ group6 (0#1 ++ BitVec.ofBool sign ++ g6) = g6 :=
  ⟨by revert sign g6; decide, by revert sign g6; decide, BitVec.extractLsb'_append_eq_right⟩

/-- A byte with bit 7 set is that bit above its group (R71). -/
theorem byte_of_continuation {b : Byte} (h : b.getLsbD 7 = true) : 1#1 ++ group7 b = b := by
  revert b; decide

/-- A byte with bit 7 clear is its sign flag above its group (R72). -/
theorem byte_of_final {b : Byte} (h : b.getLsbD 7 = false) : 0#1 ++ BitVec.ofBool (signFlag b) ++ group6 b = b := by
  revert b; decide

/-- A wire-byte row is the one its byte decodes to (R70). -/
theorem decodeWire_encode {i : Instr} (hwire : i.isCommand = false) : decodeWire (encode i) = i := by
  cases i with
  | encode | size | decode | reservedOp3 | reservedRsvd => cases hwire
  | wireContinuation g7 =>
    obtain ⟨hflag, hgroup⟩ := continuationByte_bits g7
    rw [encode, decodeWire_continuation hflag, hgroup]
  | wireFinal sign g6 =>
    obtain ⟨hflag, hsign, hgroup⟩ := finalByte_bits sign g6
    rw [encode, decodeWire_final hflag, hsign, hgroup]

/-- Every byte is the byte of the row it decodes to (R70). -/
theorem encode_decodeWire (b : Byte) : encode (decodeWire b) = b ∧ (decodeWire b).isCommand = false := by
  cases h : b.getLsbD 7 with
  | true => rw [decodeWire_continuation h]; exact ⟨byte_of_continuation h, rfl⟩
  | false => rw [decodeWire_final h]; exact ⟨byte_of_final h, rfl⟩

/-- Settles O3: the continuation flag decides the row, and under either flag the fields of the byte are the operands. -/
theorem wireBytesRoundTrip : Obligations.WireBytesRoundTrip := ⟨fun _ => decodeWire_encode, encode_decodeWire⟩

/-- Settles O1, by running the two decoders on the seven words. -/
theorem specWordsDecode : Obligations.SpecWordsDecode := by
  unfold Obligations.SpecWordsDecode
  decide

end Machine
end Sys2Proof
end

section
/-! The obligations about the turns of a running DECODE and the two wire-byte rows (spec/10_state.md, R35; spec/41_decoder.md): one
equation per turn, and the row of a byte does what the turn that reads it does. -/

namespace Sys2Proof.Machine

/-! ## One turn, forwards -/

theorem tick_of_idle {s : State} (h : s.core.engine = .idle) : tick s = .next s := by simp [tick, h]

section
variable {s : State} {d : DecState}

theorem tick_exhausted (he : s.core.engine = .decoding d) (hp : d.phase = .accumulating) (hend : d.limit ≤ d.base + d.k) :
    tick s = .next (setEngine s (.decoding (exhausted d))) := by
  simp [tick, he, decodeTick, hp, hend]

/-- A DECODE inside its range reads the next cell (R130). -/
theorem tick_read (he : s.core.engine = .decoding d) (hp : d.phase = .accumulating) (hlt : d.base + d.k < d.limit) :
    tick s = bufRead s (d.base + d.k) fun b => .next (setEngine s (.decoding (consume b d))) := by
  simp [tick, he, decodeTick, hp, hlt.not_ge]

theorem tick_consume (he : s.core.engine = .decoding d) (hp : d.phase = .accumulating) (hlt : d.base + d.k < d.limit)
    (hrange : d.base + d.k < 2 ^ s.addrBits) {b : Byte} (hb : s.buf.read (d.base + d.k) = some b) :
    tick s = .next (setEngine s (.decoding (consume b d))) := by
  rw [tick_read he hp hlt, bufRead_of_some _ hrange hb]

theorem tick_decoded (he : s.core.engine = .decoding d) (hp : d.phase = .done) :
    tick s = .next (finishOk d.k (some (decodedValue d)) s) := by
  simp [tick, he, decodeTick, hp]

theorem tick_failed (he : s.core.engine = .decoding d) {why : DecFailure} (hp : d.phase = .failed why) :
    tick s = .next (finishError (failureStatus why) s) := by
  simp [tick, he, decodeTick, hp]

end

section
variable {s : State} {e : EncState}

/-- The final byte of an ENCODE is written (R105). -/
theorem tick_final (he : s.core.engine = .encoding e) (hp : e.phase = .writing) (hf : fitsFinal e.m = true)
    (hrange : e.base + e.k < 2 ^ s.addrBits) :
    tick s = .next (setEngine { s with buf := s.buf.write (e.base + e.k) (finalByte e.neg e.m) }
      (.encoding { e with k := e.k + 1, phase := .done })) := by
  simp [tick, he, encodeTick, hp, hf, writeFinal, bufWrite_of_lt _ hrange]

/-- A continuation byte of an ENCODE with room is written (R105). -/
theorem tick_continuation (he : s.core.engine = .encoding e) (hp : e.phase = .writing) (hf : fitsFinal e.m = false)
    (hrange : e.base + e.k < 2 ^ s.addrBits) :
    tick s = .next (setEngine { s with buf := s.buf.write (e.base + e.k) (continuationByte e.m) }
      (.encoding { e with m := shiftGroup e.m, k := e.k + 1, phase := .writing })) := by
  simp [tick, he, encodeTick, hp, hf, writeContinuation, bufWrite_of_lt _ hrange]

/-- A byte of ENCODE_PREFIX (R107) is written. -/
theorem tick_prefix (he : s.core.engine = .encoding e) {left : Nat} (hp : e.phase = .short (left + 1))
    (hrange : e.base + e.k < 2 ^ s.addrBits) :
    tick s = .next (setEngine { s with buf := s.buf.write (e.base + e.k) (continuationByte e.m) }
      (.encoding { e with m := shiftGroup e.m, k := e.k + 1, phase := .short left })) := by
  simp [tick, he, encodeTick, hp, writeContinuation, bufWrite_of_lt _ hrange]

theorem tick_prefix_end (he : s.core.engine = .encoding e) (hp : e.phase = .short 0) :
    tick s = .next (finishError .bufferTooSmall s) := by
  simp [tick, he, encodeTick, hp]

theorem tick_encoded (he : s.core.engine = .encoding e) (hp : e.phase = .done) :
    tick s = .next (finishOk e.k none s) := by
  simp [tick, he, encodeTick, hp]

end

/-! ## A wire byte at the read cursor -/

section
variable {s : State} {d : DecState} (use : DecState → DecState)

theorem offerByte_inside (he : s.core.engine = .decoding d) (hp : d.phase = .accumulating) (hlt : d.base + d.k < d.limit) :
    offerByte s use = .next (setEngine s (.decoding (use d))) := by
  simp [offerByte, he, hp, hlt.not_ge]

theorem offerByte_exhausted (he : s.core.engine = .decoding d) (hp : d.phase = .accumulating)
    (hend : d.limit ≤ d.base + d.k) : offerByte s use = .next (setEngine s (.decoding (exhausted d))) := by
  simp [offerByte, he, hp, hend]

/-- Where no DECODE accumulates a wire byte is stuck (R35, R65). -/
theorem offerByte_elsewhere (h : ∀ d, s.core.engine = .decoding d → d.phase ≠ .accumulating) :
    offerByte s use = .fault .noTransition := by
  cases he : s.core.engine with
  | idle | encoding => simp [offerByte, he]
  | decoding d =>
    cases hp : d.phase with
    | accumulating => exact absurd hp (h d he)
    | done | failed => simp [offerByte, he, hp]

/-- All a wire byte can do is move the internal state on. -/
theorem offerByte_eq_next {t : State} (h : offerByte s use = .next t) : ∃ e, t = setEngine s e := by
  by_cases hacc : ∃ d, s.core.engine = .decoding d ∧ d.phase = .accumulating
  · obtain ⟨d, he, hp⟩ := hacc
    rcases lt_or_ge (d.base + d.k) d.limit with hlt | hend
    · rw [offerByte_inside use he hp hlt] at h
      exact ⟨_, (Host.Outcome.next.inj h).symm⟩
    · rw [offerByte_exhausted use he hp hend] at h
      exact ⟨_, (Host.Outcome.next.inj h).symm⟩
  · rw [offerByte_elsewhere use fun d he hp => hacc ⟨d, he, hp⟩] at h
    cases h

end

/-- The row of a byte makes the byte's own transition (R70). -/
theorem exec_decodeWire (b : Byte) (s : State) : exec (decodeWire b) s = offerByte s (consume b) := by
  cases hb : b.getLsbD 7 with
  | true =>
    rw [decodeWire_continuation hb, funext (consume_continuation hb)]
    rfl
  | false =>
    rw [decodeWire_final hb, funext (consume_final hb)]
    rfl

/-- There is a wire byte to read exactly where a DECODE accumulates inside its range and its cell holds one. -/
theorem nextWireByte_eq_some {s : State} {b : Byte} : nextWireByte s = some b ↔
    ∃ d, s.core.engine = .decoding d ∧ d.phase = .accumulating ∧ d.base + d.k < d.limit ∧
      d.base + d.k < 2 ^ s.addrBits ∧ s.buf.read (d.base + d.k) = some b := by
  unfold nextWireByte
  cases he : s.core.engine with
  | idle | encoding => simp
  | decoding d => cases hp : d.phase <;> simp [hp, and_assoc]

/-- A turn, whether the row of a byte makes it or the loop, is the same turn (R35, R130). -/
theorem advance_eq_tick (s : State) : advance s = tick s := by
  unfold advance
  cases hb : nextWireByte s with
  | none => rfl
  | some b =>
    obtain ⟨d, he, hp, hlt, hrange, hread⟩ := nextWireByte_eq_some.1 hb
    calc exec (decodeWire b) s = offerByte s (consume b) := exec_decodeWire b s
      _ = .next (setEngine s (.decoding (consume b d))) := offerByte_inside _ he hp hlt
      _ = tick s := (tick_consume he hp hlt hrange hread).symm

/-- Settles O7: where there is a wire byte to read, its row and the loop make the same transition (`advance_eq_tick`). -/
theorem advanceIsOneTurn : Obligations.AdvanceIsOneTurn := advance_eq_tick

/-! ## All turns at once -/

/-- Turns with nothing in between are the command's own loop: an idle instance does nothing more. -/
theorem advanceTimes_eq_drain (n : Nat) (s : State) : advanceTimes n s = drain n s := by
  induction n generalizing s with
  | zero => rfl
  | succ n ih =>
    rw [advanceTimes, advance_eq_tick, funext ih]
    by_cases h : s.core.engine = .idle
    · rw [tick_of_idle h, andThen_next, drain_idle h, drain_idle h]
    · rw [drain_busy h]

/-- On an idle instance ENCODE and DECODE are their beginning and then their loop (R105, R130). -/
theorem exec_encode_eq_begin {s : State} (h : s.core.engine = .idle) :
    exec .encode s = andThen (beginEncode s) (drain maxTicks) :=
  whenIdle_idle (fun t => andThen (beginEncode t) (drain maxTicks)) h

theorem exec_decode_eq_begin {s : State} (h : s.core.engine = .idle) :
    exec .decode s = andThen (beginDecode s) (drain maxTicks) :=
  whenIdle_idle (fun t => andThen (beginDecode t) (drain maxTicks)) h

/-- Settles O8: ENCODE and DECODE on an idle instance are their beginning and their loop, which is eleven turns
(`advanceTimes_eq_drain`). -/
theorem commandIsItsTurns : Obligations.CommandIsItsTurns := by
  intro s hidle
  rw [funext (advanceTimes_eq_drain 11)]
  exact ⟨exec_encode_eq_begin hidle, exec_decode_eq_begin hidle⟩

/-! ## The rows of the wire format -/

theorem exec_wireContinuation (g7 : BitVec 7) (s : State) :
    exec (.wireContinuation g7) s = offerByte s (consumeContinuation g7) := rfl

theorem exec_wireFinal (sign : Bool) (g6 : BitVec 6) (s : State) :
    exec (.wireFinal sign g6) s = offerByte s (consumeFinal sign g6) := rfl

theorem consumeContinuation_of_lt (g7 : BitVec 7) {d : DecState} (hk : d.k < 9) : consumeContinuation g7 d =
    { d with acc := d.acc ||| (g7.setWidth 64 <<< d.off), off := d.off + 7, k := d.k + 1 } := if_pos hk

theorem consumeContinuation_tenth (g7 : BitVec 7) {d : DecState} (hk : d.k = 9) :
    consumeContinuation g7 d = { d with phase := .failed .overlong } := if_neg (by omega)

/-- Settles O28, by the branch of `consumeContinuation` below the tenth byte. -/
theorem wireContinuationAccumulates : Obligations.WireContinuationAccumulates := by
  intro s d g7 he hp hlt hk
  rw [exec_wireContinuation, offerByte_inside _ he hp hlt, consumeContinuation_of_lt g7 hk]
  rfl

/-- Settles O29, by the branch of `consumeContinuation` at the tenth byte. -/
theorem wireContinuationOverlong : Obligations.WireContinuationOverlong := by
  intro s d g7 he hp hlt hk
  rw [exec_wireContinuation, offerByte_inside _ he hp hlt, consumeContinuation_tenth g7 hk]
  rfl

/-- Settles O30: inside the range a final byte makes the transition of `consumeFinal`. -/
theorem wireFinalFinishes : Obligations.WireFinalFinishes := fun _ _ sign g6 he hp hlt =>
  offerByte_inside (consumeFinal sign g6) he hp hlt

/-- Settles O31: neither the end of the range nor the lack of a DECODE that accumulates depends on the byte. -/
theorem wireByteElsewhere : Obligations.WireByteElsewhere := by
  refine fun s g7 sign g6 => ⟨fun d he hp hend => ⟨?_, ?_⟩, fun h => ⟨?_, ?_⟩⟩
  · exact offerByte_exhausted _ he hp hend
  · exact offerByte_exhausted _ he hp hend
  · exact offerByte_elsewhere _ h
  · exact offerByte_elsewhere _ h

/-- Settles O38: both rows are `offerByte`, which moves the internal state alone (`offerByte_eq_next`). -/
theorem wireByteFrame : Obligations.WireByteFrame := by
  intro s t i hwire h
  have hmove : ∃ e, t = setEngine s e := by
    cases i with
    | encode | size | decode | reservedOp3 | reservedRsvd => cases hwire
    | wireContinuation g7 => exact offerByte_eq_next _ h
    | wireFinal sign g6 => exact offerByte_eq_next _ h
  obtain ⟨e, rfl⟩ := hmove
  exact ⟨rfl, fun _ => rfl⟩

/-- Settles O32: each clause is the turn of its phase, and inside the range the branch of `consume` for the byte read. -/
theorem decoderStateMachine : Obligations.DecoderStateMachine := by
  intro s d he hwf
  rw [advance_eq_tick]
  refine ⟨?exhausted, ?byte, ?done, ?truncated, ?overlong⟩
  case exhausted => exact fun hp hend => tick_exhausted he hp hend
  case byte =>
    intro b hp hlt hread
    rw [tick_consume he hp hlt (hlt.trans_le hwf.1) hread]
    refine ⟨fun hb hk => ?_, fun hb hk => ?_, fun hb => ?_⟩
    · rw [consume_continuation hb, consumeContinuation_tenth _ hk]; rfl
    · rw [consume_continuation hb, consumeContinuation_of_lt _ hk]; rfl
    · rw [consume_final hb]; rfl
  case done => exact fun hp => tick_decoded he hp
  case truncated => exact fun hp => tick_failed he hp
  case overlong => exact fun hp => tick_failed he hp

end Sys2Proof.Machine
end

section
/-! What a turn of a running command does to its instance and to the buffer: it writes at most one cell of those its command may still
write, it depends on no cell but those its command may still read, and it brings the command nearer its completion (spec/20_memory.md,
R55 to R58; spec/70_reset_and_hazards.md, R200). -/

namespace Sys2Proof.Machine

/-! ## The phases of a command -/

section
variable {bits a : Nat} {e : EncState} {d : DecState} {m : Memory}

theorem EncState.wf_writing (h : e.phase = .writing) : e.Wf bits ↔
    e.base + e.k + sizeOfMagnitude e.m ≤ 2 ^ bits ∧ e.k + sizeOfMagnitude e.m ≤ 10 := by simp [Wf, h]

theorem EncState.wf_short {left : Nat} (h : e.phase = .short left) : e.Wf bits ↔
    e.base + e.k + left ≤ 2 ^ bits ∧ e.k + left ≤ 9 := by simp [Wf, h]

theorem EncState.wf_done (h : e.phase = .done) : e.Wf bits ↔ 1 ≤ e.k ∧ e.k ≤ 10 := by simp [Wf, h]

theorem DecState.wf_accumulating (h : d.phase = .accumulating) : d.Wf bits ↔
    d.limit ≤ 2 ^ bits ∧ d.off = 7 * d.k ∧ d.k ≤ 9 := by simp [Wf, h]

theorem DecState.wf_done (h : d.phase = .done) : d.Wf bits ↔ d.limit ≤ 2 ^ bits ∧ 1 ≤ d.k ∧ d.k ≤ 10 := by simp [Wf, h]

theorem DecState.wf_failed {why : DecFailure} (h : d.phase = .failed why) : d.Wf bits ↔
    d.limit ≤ 2 ^ bits ∧ d.k ≤ 9 := by simp [Wf, h]

theorem Engine.mayWrite_writing (h : e.phase = .writing) : (Engine.encoding e).mayWrite a ↔
    e.base + e.k ≤ a ∧ a < e.base + e.k + sizeOfMagnitude e.m := by simp [mayWrite, h]

theorem Engine.mayWrite_short {left : Nat} (h : e.phase = .short left) : (Engine.encoding e).mayWrite a ↔
    e.base + e.k ≤ a ∧ a < e.base + e.k + left := by simp [mayWrite, h]

theorem Engine.mayWrite_done (h : e.phase = .done) : ¬ (Engine.encoding e).mayWrite a := by simp [mayWrite, h]

theorem Engine.mayRead_accumulating (h : d.phase = .accumulating) : (Engine.decoding d).mayRead m a ↔
    d.base + d.k ≤ a ∧ a < d.limit ∧ a < d.base + 10 ∧
      ∀ x, d.base + d.k ≤ x → x < a → ∃ b, m.read x = some b ∧ continuationFlag b = true := by simp [mayRead, h]

theorem Engine.mayRead_done (h : d.phase = .done) : ¬ (Engine.decoding d).mayRead m a := by simp [mayRead, h]

theorem Engine.mayRead_failed {why : DecFailure} (h : d.phase = .failed why) : ¬ (Engine.decoding d).mayRead m a := by
  simp [mayRead, h]

/-- The read cursor is the first cell a DECODE still reads (R57). -/
theorem Engine.mayRead_cursor (h : d.phase = .accumulating) (hlt : d.base + d.k < d.limit) (hk : d.k ≤ 9) :
    (Engine.decoding d).mayRead m (d.base + d.k) :=
  (mayRead_accumulating h).2 ⟨le_rfl, hlt, by omega, fun x hx hxa => absurd hxa hx.not_gt⟩

theorem Engine.turnsLeft_accumulating (h : d.phase = .accumulating) : (Engine.decoding d).turnsLeft = 11 - d.k := by
  simp [turnsLeft, h]

theorem Engine.turnsLeft_decoded (h : d.phase = .done) : (Engine.decoding d).turnsLeft = 1 := by simp [turnsLeft, h]

theorem Engine.turnsLeft_failed {why : DecFailure} (h : d.phase = .failed why) : (Engine.decoding d).turnsLeft = 1 := by
  simp [turnsLeft, h]

end

/-- What a byte can do to an accumulating DECODE: its three transitions on a byte read (R35). -/
theorem consume_cases (b : Byte) (d : DecState) :
    (b.getLsbD 7 = true ∧ d.k < 9 ∧ consume b d =
      { d with acc := d.acc ||| ((group7 b).setWidth 64 <<< d.off), off := d.off + 7, k := d.k + 1 }) ∨
    (b.getLsbD 7 = true ∧ 9 ≤ d.k ∧ consume b d = { d with phase := .failed .overlong }) ∨
    (b.getLsbD 7 = false ∧ consume b d = consumeFinal (signFlag b) (group6 b) d) := by
  cases hb : b.getLsbD 7 with
  | true =>
    rw [consume_continuation hb]
    rcases lt_or_ge d.k 9 with hk | hk
    · exact .inl ⟨rfl, hk, consumeContinuation_of_lt _ hk⟩
    · exact .inr (.inl ⟨rfl, hk, if_neg hk.not_gt⟩)
  | false => exact .inr (.inr ⟨rfl, consume_final hb d⟩)

/-! ## The invariant of the internal state -/

section
variable {bits : Nat} {e : EncState}

theorem EncState.Wf.after_final (h : e.Wf bits) (hp : e.phase = .writing) (hf : fitsFinal e.m = true) :
    EncState.Wf bits { e with k := e.k + 1, phase := .done } := by
  obtain ⟨-, hten⟩ := (wf_writing hp).1 h
  rw [sizeOfMagnitude_final hf] at hten
  exact (wf_done rfl).2 ⟨Nat.succ_pos _, hten⟩

theorem EncState.Wf.after_continuation (h : e.Wf bits) (hp : e.phase = .writing) (hf : fitsFinal e.m = false) :
    EncState.Wf bits { e with m := shiftGroup e.m, k := e.k + 1, phase := .writing } := by
  have hbounds := (wf_writing hp).1 h
  rw [sizeOfMagnitude_continuation hf] at hbounds
  exact (wf_writing rfl).2 (by dsimp only; omega)

theorem EncState.Wf.after_prefix (h : e.Wf bits) {left : Nat} (hp : e.phase = .short (left + 1)) :
    EncState.Wf bits { e with m := shiftGroup e.m, k := e.k + 1, phase := .short left } := by
  have hbounds := (wf_short hp).1 h
  exact (wf_short rfl).2 (by dsimp only; omega)

end

theorem DecState.Wf.consume {bits : Nat} {d : DecState} (h : d.Wf bits) (hp : d.phase = .accumulating) (b : Byte) :
    (consume b d).Wf bits := by
  obtain ⟨hlimit, hoff, hk⟩ := (wf_accumulating hp).1 h
  obtain ⟨-, hk', heq⟩ | ⟨-, -, heq⟩ | ⟨-, heq⟩ := consume_cases b d <;> rw [heq]
  · exact (wf_accumulating (by exact hp)).2 ⟨hlimit, by simp only [hoff, Nat.mul_succ], hk'⟩
  · exact (wf_failed rfl).2 ⟨hlimit, hk⟩
  · exact (wf_done rfl).2 ⟨hlimit, Nat.succ_pos _, Nat.succ_le_succ hk⟩

theorem DecState.Wf.exhausted {bits : Nat} {d : DecState} (h : d.Wf bits) (hp : d.phase = .accumulating) :
    (exhausted d).Wf bits := by
  obtain ⟨hlimit, -, hk⟩ := (wf_accumulating hp).1 h
  exact (wf_failed rfl).2 ⟨hlimit, hk⟩

section
variable {bits : Nat} {c : Codec}

/-- A command that ends OK leaves a count from 1 to 10 (R24). -/
theorem Codec.Wf.finishOk (h : c.Wf bits) {n : Nat} (hpos : 1 ≤ n) (hten : n ≤ 10) (v : Option Word) :
    Codec.Wf bits { c with
      status := some (statusCode .ok), count := some (BitVec.ofNat 4 n), vout := v, engine := .idle } := by
  have hn : (BitVec.ofNat 4 n).toNat = n := by simpa using show n < 16 by omega
  refine { h with status_code := ?_, count_range := ?_, count_of_ok := ?_, vout_of_ok := ?_, engine := trivial }
  · rintro _ ⟨⟩; decide
  · rintro _ ⟨⟩; exact ⟨rfl, by omega⟩
  · exact fun _ => Option.some_ne_none _
  · exact fun _ _ => rfl

/-- A command that fails leaves neither COUNT nor VOUT (R24, R26, R161). -/
theorem Codec.Wf.finishError (h : c.Wf bits) {st : Status} (hst : st ≠ .ok) :
    Codec.Wf bits { c with status := some (statusCode st), count := none, vout := none, engine := .idle } := by
  have hcode : (statusCode st).toNat ≤ 4 ∧ statusCode st ≠ statusCode .ok := by revert hst; cases st <;> decide
  refine { h with status_code := ?_, count_range := ?_, count_of_ok := ?_, vout_of_ok := ?_, engine := trivial }
  · rintro _ ⟨⟩; exact hcode.1
  · rintro _ ⟨⟩
  · exact fun hok => absurd (Option.some.inj hok) hcode.2
  · rintro _ ⟨⟩

theorem Codec.Wf.setEngine (h : c.Wf bits) {e : Engine} (he : e.Wf bits) : Codec.Wf bits { c with engine := e } :=
  { h with engine := he }

end

theorem failureStatus_ne_ok (why : DecFailure) : failureStatus why ≠ .ok := by cases why <;> exact Status.noConfusion

/-- A turn of an ENCODE keeps its instance as it should be (R24, R55, R104, R107). -/
theorem encodeTick_core_wf {s t : State} {e : EncState} (he : s.core.engine = .encoding e) (hwf : s.core.Wf s.addrBits)
    (h : encodeTick e s = .next t) : t.core.Wf s.addrBits := by
  have hewf : e.Wf s.addrBits := by have := hwf.engine; rwa [he] at this
  obtain ⟨hp, hf, -, rfl⟩ | ⟨hp, hf, -, rfl⟩ | ⟨-, rfl⟩ | ⟨left, hp, -, rfl⟩ | ⟨hp, rfl⟩ := encodeTick_cases h
  · exact hwf.setEngine (hewf.after_final hp hf)
  · exact hwf.setEngine (hewf.after_continuation hp hf)
  · exact hwf.finishError Status.noConfusion
  · exact hwf.setEngine (hewf.after_prefix hp)
  · obtain ⟨hpos, hten⟩ := (EncState.wf_done hp).1 hewf
    exact hwf.finishOk hpos hten none

/-- A turn of a DECODE keeps its instance as it should be (R24, R34). -/
theorem decodeTick_core_wf {s t : State} {d : DecState} (he : s.core.engine = .decoding d) (hwf : s.core.Wf s.addrBits)
    (h : decodeTick d s = .next t) : t.core.Wf s.addrBits := by
  have hdwf : d.Wf s.addrBits := by have := hwf.engine; rwa [he] at this
  obtain ⟨hp, -, rfl⟩ | ⟨hp, -, b, -, rfl⟩ | ⟨hp, rfl⟩ | ⟨why, -, rfl⟩ := decodeTick_cases h
  · exact hwf.setEngine (hdwf.exhausted hp)
  · exact hwf.setEngine (hdwf.consume hp b)
  · obtain ⟨-, hpos, hten⟩ := (DecState.wf_done hp).1 hdwf
    exact hwf.finishOk hpos hten _
  · exact hwf.finishError (failureStatus_ne_ok why)

theorem tick_core_wf {s t : State} (hwf : s.core.Wf s.addrBits) (h : tick s = .next t) : t.core.Wf s.addrBits := by
  obtain ⟨-, rfl⟩ | ⟨e, he, h⟩ | ⟨d, he, h⟩ := tick_cases h
  · exact hwf
  · exact encodeTick_core_wf he hwf h
  · exact decodeTick_core_wf he hwf h

/-! ## Progress -/

theorem Engine.Wf.turnsLeft_le {bits : Nat} {eng : Engine} (h : eng.Wf bits) : eng.turnsLeft ≤ 11 := by
  cases eng with
  | idle => exact Nat.zero_le _
  | encoding e =>
    cases hp : e.phase with
    | writing => rw [turnsLeft_writing hp]; exact Nat.succ_le_succ (sizeOfMagnitude_le _)
    | short left =>
      obtain ⟨-, hten⟩ := (EncState.wf_short hp).1 h
      rw [turnsLeft_short hp]; omega
    | done => rw [turnsLeft_done hp]; decide
  | decoding d =>
    cases hp : d.phase with
    | accumulating => rw [turnsLeft_accumulating hp]; omega
    | done => rw [turnsLeft_decoded hp]; decide
    | failed why => rw [turnsLeft_failed hp]; decide

/-- A byte takes one of the turns of a DECODE; the last two are left to the tenth byte and the completion. -/
theorem turnsLeft_consume {bits : Nat} {d : DecState} (h : d.Wf bits) (hp : d.phase = .accumulating) (b : Byte) :
    (Engine.decoding (consume b d)).turnsLeft < (Engine.decoding d).turnsLeft := by
  obtain ⟨-, -, hk⟩ := (DecState.wf_accumulating hp).1 h
  rw [Engine.turnsLeft_accumulating hp]
  obtain ⟨-, -, heq⟩ | ⟨-, -, heq⟩ | ⟨-, heq⟩ := consume_cases b d <;> rw [heq]
  · rw [Engine.turnsLeft_accumulating (by exact hp)]; dsimp only; omega
  · rw [Engine.turnsLeft_failed rfl]; omega
  · rw [Engine.turnsLeft_decoded rfl]; omega

theorem tick_turnsLeft_lt {s t : State} (hwf : s.core.engine.Wf s.addrBits) (hbusy : s.core.engine ≠ .idle)
    (h : tick s = .next t) : t.core.engine.turnsLeft < s.core.engine.turnsLeft := by
  obtain ⟨hidle, -⟩ | ⟨e, he, h⟩ | ⟨d, he, h⟩ := tick_cases h
  · exact absurd hidle hbusy
  · rw [he]
    obtain ⟨e', he', hleft, -⟩ | ⟨hidle, -⟩ := encodeTick_finalResults h
    · rw [he']; omega
    · rw [hidle]; exact Engine.turnsLeft_encoding_pos e
  · rw [he] at hwf ⊢
    obtain ⟨hp, -, rfl⟩ | ⟨hp, -, b, -, rfl⟩ | ⟨hp, rfl⟩ | ⟨why, hp, rfl⟩ := decodeTick_cases h
    · obtain ⟨-, -, hk⟩ := (DecState.wf_accumulating hp).1 hwf
      rw [Engine.turnsLeft_accumulating hp]
      show (Engine.decoding (exhausted d)).turnsLeft < _
      rw [Engine.turnsLeft_failed rfl]; omega
    · exact turnsLeft_consume hwf hp b
    · rw [Engine.turnsLeft_decoded hp]; exact Nat.one_pos
    · rw [Engine.turnsLeft_failed hp]; exact Nat.one_pos

/-- Settles O55: the invariant bounds the turns (`Engine.Wf.turnsLeft_le`), and each turn takes one at least
(`tick_turnsLeft_lt`). -/
theorem commandsAreBounded : Obligations.CommandsAreBounded := by
  intro s t hwf hbusy h
  rw [advance_eq_tick] at h
  exact ⟨hwf.turnsLeft_le, tick_turnsLeft_lt hwf hbusy h⟩

/-! ## A turn depends on its own cells only -/

/-- The buffer behind a turn that writes the cell `w`, or none. -/
def Memory.put (m : Memory) (w : Option Host.Cell) : Memory :=
  match w with
  | some (a, b) => m.write a b
  | none => m

@[simp] theorem Memory.put_some (m : Memory) (a : Nat) (b : Byte) : m.put (some (a, b)) = m.write a b := rfl
@[simp] theorem Memory.put_none (m : Memory) : m.put none = m := rfl

/-- The turn of the selected instance replaces it and writes the cell `w`, or none, and it depends on nothing but the instance and the bytes
that its command may still read: on any other state that agrees there, it does the same, fault included. -/
def State.LocalTurn (s : State) (w : Option Host.Cell) : Prop :=
  ∀ r : State, r.core = s.core → r.addrBits = s.addrBits →
    (∀ a, s.core.engine.mayRead s.buf a → r.buf.read a = s.buf.read a) →
    tick r = andThen (tick s) fun t => .next { r with core := t.core, buf := r.buf.put w }

section
variable {s t : State} {w : Option Host.Cell}

theorem State.LocalTurn.next (h : s.LocalTurn w) (hturn : tick s = .next t) {r : State} (hcore : r.core = s.core)
    (hbits : r.addrBits = s.addrBits) (hreads : ∀ a, s.core.engine.mayRead s.buf a → r.buf.read a = s.buf.read a) :
    tick r = .next { r with core := t.core, buf := r.buf.put w } := by
  rw [h r hcore hbits hreads, hturn, andThen_next]

theorem State.LocalTurn.eq (h : s.LocalTurn w) (hturn : tick s = .next t) :
    t = { s with core := t.core, buf := s.buf.put w } :=
  Host.Outcome.next.inj (hturn.symm.trans (h.next hturn rfl rfl fun _ _ => rfl))

end

/-- A turn of an ENCODE reads nothing and writes the cell at its cursor, or none (R105, R107). -/
theorem encodeTick_local {s : State} {e : EncState} (he : s.core.engine = .encoding e) (hwf : e.Wf s.addrBits) :
    ∃ w : Option Host.Cell, (∀ x ∈ w, (Engine.encoding e).mayWrite x.1) ∧ s.LocalTurn w := by
  cases hp : e.phase with
  | writing =>
    obtain ⟨hroom, -⟩ := (EncState.wf_writing hp).1 hwf
    have hsize := sizeOfMagnitude_pos e.m
    have hmay : (Engine.encoding e).mayWrite (e.base + e.k) := (Engine.mayWrite_writing hp).2 (by omega)
    have hrange : e.base + e.k < 2 ^ s.addrBits := by omega
    cases hf : fitsFinal e.m with
    | true =>
      refine ⟨some (e.base + e.k, finalByte e.neg e.m), by simpa using hmay, fun r hcore hbits _ => ?_⟩
      rw [tick_final he hp hf hrange, tick_final (hcore ▸ he) hp hf (hbits ▸ hrange), andThen_next]
      simp [setEngine, hcore]
    | false =>
      refine ⟨some (e.base + e.k, continuationByte e.m), by simpa using hmay, fun r hcore hbits _ => ?_⟩
      rw [tick_continuation he hp hf hrange, tick_continuation (hcore ▸ he) hp hf (hbits ▸ hrange), andThen_next]
      simp [setEngine, hcore]
  | short left =>
    cases left with
    | zero =>
      refine ⟨none, by simp, fun r hcore _ _ => ?_⟩
      rw [tick_prefix_end he hp, tick_prefix_end (hcore ▸ he) hp, andThen_next]
      simp [finishError_eq, finish, hcore]
    | succ left =>
      obtain ⟨hroom, -⟩ := (EncState.wf_short hp).1 hwf
      have hmay : (Engine.encoding e).mayWrite (e.base + e.k) := (Engine.mayWrite_short hp).2 (by omega)
      have hrange : e.base + e.k < 2 ^ s.addrBits := by omega
      refine ⟨some (e.base + e.k, continuationByte e.m), by simpa using hmay, fun r hcore hbits _ => ?_⟩
      rw [tick_prefix he hp hrange, tick_prefix (hcore ▸ he) hp (hbits ▸ hrange), andThen_next]
      simp [setEngine, hcore]
  | done =>
    refine ⟨none, by simp, fun r hcore _ _ => ?_⟩
    rw [tick_encoded he hp, tick_encoded (hcore ▸ he) hp, andThen_next]
    simp [finishOk_eq, finish, hcore]

/-- A turn of a DECODE writes nothing and reads the cell at its cursor, or none (R130, R140). -/
theorem decodeTick_local {s : State} {d : DecState} (he : s.core.engine = .decoding d) (hwf : d.Wf s.addrBits) :
    s.LocalTurn none := by
  intro r hcore hbits hreads
  cases hp : d.phase with
  | accumulating =>
    obtain ⟨-, -, hk⟩ := (DecState.wf_accumulating hp).1 hwf
    rcases lt_or_ge (d.base + d.k) d.limit with hlt | hend
    · have hcursor : s.core.engine.mayRead s.buf (d.base + d.k) := he ▸ Engine.mayRead_cursor hp hlt hk
      rw [tick_read he hp hlt, tick_read (hcore ▸ he) hp hlt, bufRead, bufRead, hbits, hreads _ hcursor]
      split
      · cases s.buf.read (d.base + d.k) <;> simp [setEngine, hcore, hbits]
      · rfl
    · rw [tick_exhausted he hp hend, tick_exhausted (hcore ▸ he) hp hend, andThen_next]
      simp [setEngine, hcore]
  | done =>
    rw [tick_decoded he hp, tick_decoded (hcore ▸ he) hp, andThen_next]
    simp [finishOk_eq, finish, hcore]
  | failed why =>
    rw [tick_failed he hp, tick_failed (hcore ▸ he) hp, andThen_next]
    simp [finishError_eq, finish, hcore]

/-- Every turn is a `LocalTurn`, and what it writes is a cell that its command may still write (R56, R57). -/
theorem tick_local {s : State} (hwf : s.core.engine.Wf s.addrBits) :
    ∃ w : Option Host.Cell, (∀ x ∈ w, s.core.engine.mayWrite x.1) ∧ s.LocalTurn w := by
  cases he : s.core.engine with
  | idle =>
    refine ⟨none, by simp, fun r hcore _ _ => ?_⟩
    rw [tick_of_idle he, tick_of_idle (hcore ▸ he), andThen_next, ← hcore]
    rfl
  | encoding e => exact encodeTick_local he (by rwa [he] at hwf)
  | decoding d => exact ⟨none, by simp, decodeTick_local he (by rwa [he] at hwf)⟩

end Sys2Proof.Machine
end

section
/-! The obligations about every step (spec/10_state.md; spec/60_exceptions.md, R166, R174): what a step is made of, said once, and what
each of these parts keeps. -/

namespace Sys2Proof.Machine

/-! ## What a step is made of -/

/-- What happens to the selected instance, the buffer and the host's side inside one step. -/
inductive State.Move : State → State → Prop where
  /-- An event is done, and the host's last read has its answer. -/
  | host (s : State) (script : List Event) (answer : Option Word) : Move s { s with script := script, answer := answer }
  | setCmd (s : State) (w : Option Byte) : Move s { s with core := { s.core with cmd := w } }
  | setVin (s : State) (v : Option Word) : Move s { s with core := { s.core with vin := v } }
  | setPos (s : State) {p : Nat} (h : p < 2 ^ s.addrBits) : Move s { s with core := { s.core with pos := some p } }
  | setLen (s : State) {n : Nat} (h : n < 2 ^ (s.addrBits + 1)) : Move s { s with core := { s.core with len := some n } }
  | poke {s t : State} {a : Nat} {b : Byte} (h : bufWrite s a b = .next t) : Move s t
  | beginEncode {s t : State} (h : beginEncode s = .next t) : Move s t
  | beginDecode {s t : State} (h : beginDecode s = .next t) : Move s t
  | turn {s t : State} (h : tick s = .next t) : Move s t
  | size (s : State) (v : Word) : Move s (finishOk (encodedSize v) none s)
  | illegal (s : State) : Move s (finishError .illegalCommand s)

/-- Any number of moves of the selected instance. -/
abbrev State.Moves : State → State → Prop := Relation.ReflTransGen State.Move

/-- Instance `i` is selected and moves. -/
def State.MovesAt (i : Nat) (s t : State) : Prop := ∃ u, select i s = some u ∧ u.Moves t

section
variable {s t : State}

theorem State.Moves.host (s : State) (script : List Event) (answer : Option Word) :
    s.Moves { s with script := script, answer := answer } := .single (.host s script answer)

theorem drain_moves {n : Nat} (h : drain n s = .next t) : s.Moves t := by
  induction n generalizing s with
  | zero => cases h; exact .refl
  | succ n ih =>
    by_cases hidle : s.core.engine = .idle
    · rw [drain_idle hidle] at h; cases h; exact .refl
    · rw [drain_busy hidle, andThen_eq_next] at h
      obtain ⟨u, hturn, hrest⟩ := h
      exact (Relation.ReflTransGen.single (.turn hturn)).trans (ih hrest)

theorem illegalCommand_moves (h : illegalCommand s = .next t) : s.Moves t := by
  obtain ⟨-, h⟩ := whenIdle_eq_next.1 h
  cases h
  exact .single (.illegal s)

theorem exec_decode_eq_next : exec .decode s = .next t ↔
    s.core.engine = .idle ∧ ∃ u, beginDecode s = .next u ∧ drain maxTicks u = .next t := by
  show whenIdle s (fun x => andThen (beginDecode x) (drain maxTicks)) = _ ↔ _
  rw [whenIdle_eq_next, andThen_eq_next]

/-- A command, run as one step, moves the selected instance (R5). -/
theorem exec_moves {i : Instr} (hcommand : i.isCommand = true) (h : exec i s = .next t) : s.Moves t := by
  cases i with
  | encode =>
    obtain ⟨-, u, hbegin, hdrain⟩ := exec_encode_eq_next.1 h
    exact (Relation.ReflTransGen.single (.beginEncode hbegin)).trans (drain_moves hdrain)
  | size =>
    obtain ⟨-, v, -, rfl⟩ := exec_size_eq_next.1 h
    exact .single (.size s v)
  | decode =>
    obtain ⟨-, u, hbegin, hdrain⟩ := exec_decode_eq_next.1 h
    exact (Relation.ReflTransGen.single (.beginDecode hbegin)).trans (drain_moves hdrain)
  | reservedOp3 => exact illegalCommand_moves h
  | reservedRsvd => exact illegalCommand_moves h
  | wireContinuation | wireFinal => cases hcommand

/-- A command begun moves the selected instance (R58, R62). -/
theorem beginCommand_moves {i : Instr} (hcommand : i.isCommand = true) (h : beginCommand i s = .next t) : s.Moves t := by
  cases i with
  | encode => exact .single (.beginEncode h)
  | decode => exact .single (.beginDecode h)
  | size | reservedOp3 | reservedRsvd => exact exec_moves hcommand h
  | wireContinuation | wireFinal => cases hcommand

theorem advance_moves (h : advance s = .next t) : s.Moves t := .single (.turn (advance_eq_tick s ▸ h))

theorem ofWidth_eq_next {bits v : Nat} {k : Result} : ofWidth bits v k = .next t ↔ v < 2 ^ bits ∧ k = .next t := by
  unfold ofWidth
  split <;> simp_all

theorem hostWrite_moves {r : Reg} {v : Nat} (h : hostWrite r v s = .next t) : s.Moves t := by
  cases r with
  | cmd => obtain ⟨-, h⟩ := ofWidth_eq_next.1 h; cases h; exact .single (.setCmd s _)
  | vin => obtain ⟨-, h⟩ := ofWidth_eq_next.1 h; cases h; exact .single (.setVin s _)
  | pos => obtain ⟨hv, h⟩ := ofWidth_eq_next.1 h; cases h; exact .single (.setPos s hv)
  | len => obtain ⟨hv, h⟩ := ofWidth_eq_next.1 h; cases h; exact .single (.setLen s hv)
  | status | count | vout => cases h

/-- A host read leaves its answer, and nothing else. -/
theorem hostRead_eq_next {r : Reg} (h : hostRead r s = .next t) : ∃ x, t = { s with answer := some x } := by
  cases r with
  | cmd | vin | pos | len => cases h
  | status | count | vout =>
    obtain ⟨x, -, h⟩ := withValue_eq_next.1 h
    exact ⟨_, (Host.Outcome.next.inj h).symm⟩

theorem hostRead_moves {r : Reg} (h : hostRead r s = .next t) : s.Moves t := by
  obtain ⟨x, rfl⟩ := hostRead_eq_next h
  exact .host s _ _

theorem hostPeek_eq_next {a : Nat} (h : hostPeek a s = .next t) : ∃ x, t = { s with answer := some x } := by
  obtain ⟨-, b, -, h⟩ := bufRead_eq_next.1 h
  exact ⟨_, (Host.Outcome.next.inj h).symm⟩

theorem advanceAt_eq_next {i : Nat} : advanceAt i s = .next t ↔ ∃ u, select i s = some u ∧ tick u = .next t := by
  unfold advanceAt
  cases select i s <;> simp [advance_eq_tick]

theorem advanceAt_moves {i : Nat} (h : advanceAt i s = .next t) : s.MovesAt i t := by
  obtain ⟨u, hu, hturn⟩ := advanceAt_eq_next.1 h
  exact ⟨u, hu, .single (.turn hturn)⟩

/-- Where the host waits for an idle instance, the instance moves: its command, or what the event says. -/
theorem onceIdle_moves {i : Nat} {rest : List Event} {k : State → Result}
    (hk : ∀ {u v : State}, k u = .next v → u.Moves v) (h : onceIdle i rest s k = .next t) : s.MovesAt i t := by
  obtain ⟨u, hu, ⟨-, hturn⟩ | ⟨-, hevent⟩⟩ := onceIdle_cases h
  · exact ⟨u, hu, advance_moves hturn⟩
  · exact ⟨u, hu, (State.Moves.host u rest u.answer).trans (hk hevent)⟩

/-- Selection by number: the instance of that number, those below it and those above it (R174). -/
theorem select_eq (i : Nat) (s : State) : select i s =
    s.codecs[i]?.map fun c => { s with before := s.codecs.take i, core := c, after := s.codecs.drop (i + 1) } := by
  unfold select
  rcases lt_or_ge i s.codecs.length with hi | hi
  · rw [List.drop_eq_getElem_cons hi, List.getElem?_eq_getElem hi]; rfl
  · rw [List.drop_eq_nil_of_le hi, List.getElem?_eq_none hi]; rfl

/-- The host's script is not part of what is selected. -/
theorem select_script (i : Nat) (s : State) (rest : List Event) :
    select i { s with script := rest } = (select i s).map fun u => { u with script := rest } := by
  rw [select_eq, select_eq, Option.map_map]
  rfl

/-- An event that names an instance moves that instance (R174). -/
theorem runEvent_moves {e : Event} {rest : List Event} {i : Nat} (hname : e.names = some i)
    (h : runEvent e rest s = .next t) : s.MovesAt i t := by
  cases e with
  | write j r v => cases hname; exact onceIdle_moves hostWrite_moves h
  | start j w => cases hname; exact onceIdle_moves (beginCommand_moves (encode_decodeCommand w).2.1) h
  | advance j =>
    cases hname
    obtain ⟨u, hu, hturn⟩ := advanceAt_eq_next.1 h
    rw [select_script, Option.map_eq_some_iff] at hu
    obtain ⟨u, hu, rfl⟩ := hu
    exact ⟨u, hu, (State.Moves.host u rest u.answer).trans (.single (.turn hturn))⟩
  | read j r => cases hname; exact onceIdle_moves hostRead_moves h
  | poke | peek | reset => cases hname

/-- A word in CMD moves the selected instance (R22). -/
theorem step_moves_of_cmd {w : Byte} (hcmd : s.core.cmd = some w) (h : step s = .next t) : s.Moves t := by
  simp only [step, runNext, hcmd] at h
  split at h
  · exact (Relation.ReflTransGen.single (.setCmd s none)).trans (exec_moves (encode_decodeCommand w).2.1 h)
  · exact advance_moves h

theorem step_runOn (hcmd : s.core.cmd = none) (hscript : s.script = []) : step s = runOn s := by
  simp [step, runNext, hcmd, hscript]

/-- With nothing in store the first busy instance moves, if there is one (R191, R200). -/
theorem runOn_cases (h : runOn s = .next t) :
    (∃ i, firstBusy s = some i ∧ advanceAt i s = .next t) ∨ (firstBusy s = none ∧ t = s) := by
  unfold runOn at h
  split at h
  · exact .inl ⟨_, ‹_›, h⟩
  · exact .inr ⟨‹_›, (Host.Outcome.next.inj h).symm⟩

/-- A reset and a read of the buffer wait while any instance is busy, and the first busy one moves (R60, R190). -/
theorem step_waits_all {i a : Nat} {rest : List Event} (hcmd : s.core.cmd = none) (hbusy : firstBusy s = some i)
    (h : s.script = .reset :: rest ∨ s.script = .peek a :: rest) : step s = advanceAt i s := by
  obtain h | h := h
  · rw [step_event hcmd h]
    exact onceAllIdle_busy (k := fun u => .next (resetAll u)) hbusy
  · rw [step_event hcmd h]
    exact onceAllIdle_busy hbusy

/-- Everything a step can do: the selected instance moves, one instance is selected and moves, or all instances are reset. -/
theorem step_cases (h : step s = .next t) :
    s.Moves t ∨ (∃ i, s.MovesAt i t) ∨ (∃ rest, t = resetAll { s with script := rest }) := by
  cases hcmd : s.core.cmd with
  | some w => exact .inl (step_moves_of_cmd hcmd h)
  | none =>
    cases hscript : s.script with
    | nil =>
      obtain ⟨i, -, hturn⟩ | ⟨-, rfl⟩ := runOn_cases (step_runOn hcmd hscript ▸ h)
      · exact .inr (.inl ⟨i, advanceAt_moves hturn⟩)
      · exact .inl .refl
    | cons e rest =>
      rw [step_event hcmd hscript] at h
      cases e with
      | write i r v => exact .inr (.inl ⟨i, runEvent_moves rfl h⟩)
      | start i w => exact .inr (.inl ⟨i, runEvent_moves rfl h⟩)
      | advance i => exact .inr (.inl ⟨i, runEvent_moves rfl h⟩)
      | read i r => exact .inr (.inl ⟨i, runEvent_moves rfl h⟩)
      | poke a b => exact .inl ((State.Moves.host s rest s.answer).trans (.single (.poke h)))
      | peek a =>
        obtain ⟨i, -, hturn⟩ | ⟨-, hpeek⟩ := onceAllIdle_cases h
        · exact .inr (.inl ⟨i, advanceAt_moves hturn⟩)
        · obtain ⟨x, rfl⟩ := hostPeek_eq_next hpeek
          exact .inl (.host s rest (some x))
      | reset =>
        obtain ⟨i, -, hturn⟩ | ⟨-, hreset⟩ := onceAllIdle_cases (k := fun u => .next (resetAll u)) h
        · exact .inr (.inl ⟨i, advanceAt_moves hturn⟩)
        · exact .inr (.inr ⟨rest, (Host.Outcome.next.inj hreset).symm⟩)

end

/-! ## What a move leaves unchanged -/

/-- What no move of the selected instance changes: the other instances, the parameters and the record. -/
structure State.SameAround (s t : State) : Prop where
  before : t.before = s.before
  after : t.after = s.after
  addrBits : t.addrBits = s.addrBits
  record : t.record = s.record

/-- A turn changes the selected instance and the buffer alone. -/
theorem tick_frame {s t : State} (h : tick s = .next t) : t = { s with core := t.core, buf := t.buf } := by
  obtain ⟨-, rfl⟩ | ⟨e, -, h⟩ | ⟨d, -, h⟩ := tick_cases h
  · rfl
  · obtain ⟨-, -, -, rfl⟩ | ⟨-, -, -, rfl⟩ | ⟨-, rfl⟩ | ⟨left, -, -, rfl⟩ | ⟨-, rfl⟩ := encodeTick_cases h <;> rfl
  · obtain ⟨-, -, rfl⟩ | ⟨-, -, b, -, rfl⟩ | ⟨-, rfl⟩ | ⟨why, -, rfl⟩ := decodeTick_cases h <;> rfl

theorem tick_sameAround {s t : State} (h : tick s = .next t) : s.SameAround t := by
  rw [tick_frame h]
  exact ⟨rfl, rfl, rfl, rfl⟩

theorem State.Move.sameAround {s t : State} (h : s.Move t) : s.SameAround t := by
  cases h with
  | host | setCmd | setVin | setPos | setLen | size | illegal => exact ⟨rfl, rfl, rfl, rfl⟩
  | poke h => obtain ⟨-, rfl⟩ := bufWrite_eq_next.1 h; exact ⟨rfl, rfl, rfl, rfl⟩
  | beginEncode h =>
    obtain ⟨v, p, len, -, -, -, -, ⟨-, rfl⟩ | ⟨-, rfl⟩⟩ := beginEncode_cases h <;> exact ⟨rfl, rfl, rfl, rfl⟩
  | beginDecode h => obtain ⟨p, len, -, -, -, rfl⟩ := beginDecode_cases h; exact ⟨rfl, rfl, rfl, rfl⟩
  | turn h => exact tick_sameAround h

theorem State.Moves.sameAround {s t : State} (h : s.Moves t) : s.SameAround t := by
  induction h with
  | refl => exact ⟨rfl, rfl, rfl, rfl⟩
  | tail _ hmove ih =>
    have hnext := hmove.sameAround
    exact ⟨hnext.before.trans ih.before, hnext.after.trans ih.after, hnext.addrBits.trans ih.addrBits,
      hnext.record.trans ih.record⟩

/-- Of the list of instances only the selected one is replaced. -/
theorem State.SameAround.codecs {s t : State} (h : s.SameAround t) : t.codecs = s.codecs.set s.before.length t.core := by
  simp [State.codecs, h.before, h.after]

theorem State.SameAround.getElem?_ne {s t : State} (h : s.SameAround t) {j : Nat} (hj : j ≠ s.before.length) :
    t.codecs[j]? = s.codecs[j]? := by
  rw [h.codecs, List.getElem?_set_ne hj.symm]

theorem State.MovesAt.getElem?_ne {s t : State} {i j : Nat} (h : s.MovesAt i t) (hj : j ≠ i) :
    t.codecs[j]? = s.codecs[j]? := by
  obtain ⟨u, hu, hmoves⟩ := h
  obtain ⟨hcodecs, rfl, -⟩ := select_eq_some hu
  rw [hmoves.sameAround.getElem?_ne hj, hcodecs]

/-- What no step changes: the parameters of R7 and the record of R166. -/
theorem step_parameters {s t : State} (h : step s = .next t) :
    t.addrBits = s.addrBits ∧ t.codecs.length = s.codecs.length ∧ t.record = s.record := by
  obtain hmoves | ⟨i, u, hu, hmoves⟩ | ⟨rest, rfl⟩ := step_cases h
  · exact ⟨hmoves.sameAround.addrBits, by simp [hmoves.sameAround.codecs], hmoves.sameAround.record⟩
  · obtain ⟨hcodecs, -⟩ := select_eq_some hu
    obtain ⟨hbits, -, -, -, -, hrecord⟩ := select_frame hu
    exact ⟨hmoves.sameAround.addrBits.trans hbits, by simp [hmoves.sameAround.codecs, hcodecs],
      hmoves.sameAround.record.trans hrecord⟩
  · exact ⟨rfl, by simp [State.codecs], rfl⟩

theorem recordStop_of_some {s : State} {y : Stop} (h : s.record = some y) (x : Stop) : (recordStop x s).record = some y := by
  simp [recordStop, h]

theorem recordStop_of_none {s : State} (h : s.record = none) (x : Stop) : (recordStop x s).record = some x := by
  simp [recordStop, h]

/-- A record once made stays (R166). -/
theorem settle_record {s : State} {x : Stop} (h : s.record = some x) : (settle s).record = some x := by
  unfold settle
  split
  · obtain ⟨-, -, hrecord⟩ := step_parameters ‹_›
    exact hrecord.trans h
  · exact recordStop_of_some h _
  · exact recordStop_of_some h _

theorem runRecorded_record {s : State} {x : Stop} (n : Nat) (h : s.record = some x) : (runRecorded n s).record = some x := by
  induction n generalizing s with
  | zero => exact h
  | succ n ih => exact ih (settle_record h)

/-- Settles O53: a step that answers a next state keeps the record (`step_parameters`), and one that does not makes it, once. -/
theorem parametersAndRecordStay : Obligations.ParametersAndRecordStay := by
  refine ⟨fun s t => step_parameters, fun s x n => runRecorded_record n, fun s hnone => ⟨fun f hf => ?_, fun r hr => ?_⟩⟩
  · rw [settle, hf]; exact recordStop_of_none hnone _
  · rw [settle, hr]; exact recordStop_of_none hnone _

/-- Settles O54: the selected instance moves, or the one the event names or the host waits for (`State.MovesAt`), and what one of them does
leaves the others as they were. -/
theorem otherInstancesUntouched : Obligations.OtherInstancesUntouched := by
  intro s t h
  refine ⟨?word, fun hcmd => ⟨?named, ?poke, ?peek, ?waiting, ?nothing⟩⟩
  case word =>
    intro hcmd j hj
    obtain ⟨w, hw⟩ := Option.ne_none_iff_exists'.1 hcmd
    exact (step_moves_of_cmd hw h).sameAround.getElem?_ne hj
  case named =>
    intro e rest i hscript hname j hj
    exact (runEvent_moves hname (step_event hcmd hscript ▸ h)).getElem?_ne hj
  case poke =>
    intro a b rest hscript
    rw [step_event hcmd hscript] at h
    obtain ⟨-, rfl⟩ := bufWrite_eq_next.1 h
    rfl
  case peek =>
    intro a rest hscript hidle
    rw [step_event hcmd hscript, runEvent, onceAllIdle_idle hidle] at h
    obtain ⟨x, rfl⟩ := hostPeek_eq_next h
    rfl
  case waiting =>
    intro i hbusy hwaits j hj
    have hturn : step s = advanceAt i s := by
      obtain hscript | ⟨a, rest, hscript⟩ | ⟨rest, hscript⟩ := hwaits
      · rw [step_runOn hcmd hscript, runOn, hbusy]
      · exact step_waits_all hcmd hbusy (.inr hscript)
      · exact step_waits_all (a := 0) hcmd hbusy (.inl hscript)
    exact (advanceAt_moves (hturn ▸ h)).getElem?_ne hj
  case nothing =>
    intro hscript hidle
    obtain ⟨i, hbusy, -⟩ | ⟨-, rfl⟩ := runOn_cases (step_runOn hcmd hscript ▸ h)
    · rw [hidle] at hbusy; cases hbusy
    · rfl

/-! ## The invariant -/

theorem Codec.reset_wf (bits : Nat) : Codec.reset.Wf bits := by
  refine ⟨?_, ?_, ?_, ?_, fun hok => absurd hok (by decide), ?_, trivial⟩ <;> rintro _ ⟨⟩

theorem State.Inv.core {s : State} (h : s.Inv) : s.core.Wf s.addrBits := h.codecs _ (by simp [State.codecs])

/-- To keep the invariant is to keep that of the buffer and that of the selected instance, where nothing else changes. -/
theorem State.Inv.of_sameAround {s t : State} (h : s.Inv) (hsame : s.SameAround t) (hbuf : Memory.wf t.buf)
    (hrange : ∀ x ∈ t.buf, x.1 < 2 ^ s.addrBits) (hcore : t.core.Wf s.addrBits) : t.Inv := by
  refine ⟨hbuf, by rwa [hsame.addrBits], fun c hc => ?_⟩
  rw [hsame.addrBits]
  rw [hsame.codecs] at hc
  rcases List.mem_or_eq_of_mem_set hc with hc | rfl
  · exact h.codecs c hc
  · exact hcore

/-- A command that may still write a cell may write it in the buffer only (R55). -/
theorem Engine.Wf.mayWrite_lt {bits a : Nat} {eng : Engine} (h : eng.Wf bits) (ha : eng.mayWrite a) : a < 2 ^ bits := by
  cases eng with
  | idle => cases ha
  | encoding e =>
    cases hp : e.phase with
    | writing =>
      have hbounds := (EncState.wf_writing hp).1 h
      have := (mayWrite_writing hp).1 ha
      omega
    | short left =>
      have hbounds := (EncState.wf_short hp).1 h
      have := (mayWrite_short hp).1 ha
      omega
    | done => exact absurd ha (mayWrite_done hp)
  | decoding d => cases ha

/-- A turn that answers a next state, read off `tick_local`: the instance is replaced and at most one cell written. -/
theorem tick_put {s t : State} (hwf : s.core.engine.Wf s.addrBits) (h : tick s = .next t) :
    ∃ w : Option Host.Cell, (∀ x ∈ w, s.core.engine.mayWrite x.1) ∧ t = { s with core := t.core, buf := s.buf.put w } := by
  obtain ⟨w, hw, hlocal⟩ := tick_local hwf
  exact ⟨w, hw, hlocal.eq h⟩

theorem Memory.put_wf {m : Memory} (h : Memory.wf m) (w : Option Host.Cell) : Memory.wf (m.put w) := by
  cases w with
  | none => exact h
  | some x => exact Memory.write_wf h _ _

theorem Memory.put_range {m : Memory} {n : Nat} (h : ∀ x ∈ m, x.1 < n) {w : Option Host.Cell} (hw : ∀ x ∈ w, x.1 < n) :
    ∀ x ∈ m.put w, x.1 < n := by
  cases w with
  | none => exact h
  | some x => exact Memory.write_range h (hw x rfl) _

theorem tick_inv {s t : State} (hinv : s.Inv) (h : tick s = .next t) : t.Inv := by
  obtain ⟨w, hw, ht⟩ := tick_put hinv.core.engine h
  have hbuf : t.buf = s.buf.put w := congrArg State.buf ht
  refine hinv.of_sameAround (tick_sameAround h) ?_ ?_ (tick_core_wf hinv.core h) <;> rw [hbuf]
  · exact Memory.put_wf hinv.buf_wf w
  · exact Memory.put_range hinv.buf_range fun x hx => hinv.core.engine.mayWrite_lt (hw x hx)

/-- An ENCODE that begins stays inside the buffer: with room its bytes end below LEN, without it the piece of R107 does (R105). -/
theorem beginEncode_core_wf {s t : State} (hwf : s.core.Wf s.addrBits) (h : beginEncode s = .next t) :
    t.buf = s.buf ∧ t.core.Wf s.addrBits := by
  obtain ⟨v, p, len, -, hpos, -, hlen, hcase⟩ := beginEncode_cases h
  have hp := hwf.pos_width p hpos
  have hten : encodedSize v ≤ 10 := sizeOfMagnitude_le _
  obtain ⟨hsmall, rfl⟩ | ⟨hroom, rfl⟩ := hcase
  · have hwritten := writtenOnFailure_le (capacity p len) s.draws
    have hend : p + capacity p len ≤ 2 ^ s.addrBits := by unfold capacity; split <;> omega
    exact ⟨rfl, hwf.setEngine (e := .encoding ⟨_, _, 0, p, _⟩) ⟨by dsimp only; omega, by dsimp only; omega⟩⟩
  · have hend : p + encodedSize v ≤ len := by
      have hpos : 1 ≤ encodedSize v := sizeOfMagnitude_pos _
      unfold capacity at hroom
      split at hroom <;> omega
    exact ⟨rfl, hwf.setEngine (e := .encoding ⟨_, _, 0, p, _⟩)
      (show p + 0 + encodedSize v ≤ _ ∧ 0 + encodedSize v ≤ 10 by omega)⟩

theorem beginDecode_core_wf {s t : State} (hwf : s.core.Wf s.addrBits) (h : beginDecode s = .next t) :
    t.buf = s.buf ∧ t.core.Wf s.addrBits := by
  obtain ⟨p, len, -, -, hlen, rfl⟩ := beginDecode_cases h
  exact ⟨rfl, hwf.setEngine (show len ≤ _ ∧ 0 = 7 * 0 ∧ 0 ≤ 9 by omega)⟩

theorem State.Move.inv {s t : State} (hinv : s.Inv) (h : s.Move t) : t.Inv := by
  have hsame := h.sameAround
  have hwf := hinv.core
  cases h with
  | host | setCmd | setVin => exact hinv.of_sameAround hsame hinv.buf_wf hinv.buf_range { hwf with }
  | setPos hp =>
    exact hinv.of_sameAround hsame hinv.buf_wf hinv.buf_range { hwf with pos_width := by rintro _ ⟨⟩; exact hp }
  | setLen hn =>
    exact hinv.of_sameAround hsame hinv.buf_wf hinv.buf_range { hwf with len_width := by rintro _ ⟨⟩; exact hn }
  | poke h =>
    obtain ⟨ha, rfl⟩ := bufWrite_eq_next.1 h
    exact hinv.of_sameAround hsame (Memory.write_wf hinv.buf_wf _ _) (Memory.write_range hinv.buf_range ha _) hwf
  | beginEncode h =>
    obtain ⟨hbuf, hcore⟩ := beginEncode_core_wf hwf h
    exact hinv.of_sameAround hsame (hbuf ▸ hinv.buf_wf) (hbuf ▸ hinv.buf_range) hcore
  | beginDecode h =>
    obtain ⟨hbuf, hcore⟩ := beginDecode_core_wf hwf h
    exact hinv.of_sameAround hsame (hbuf ▸ hinv.buf_wf) (hbuf ▸ hinv.buf_range) hcore
  | turn h => exact tick_inv hinv h
  | size v =>
    exact hinv.of_sameAround hsame hinv.buf_wf hinv.buf_range
      (hwf.finishOk (sizeOfMagnitude_pos _) (sizeOfMagnitude_le _) none)
  | illegal => exact hinv.of_sameAround hsame hinv.buf_wf hinv.buf_range (hwf.finishError Status.noConfusion)

theorem State.Moves.inv {s t : State} (hinv : s.Inv) (h : s.Moves t) : t.Inv := by
  induction h with
  | refl => exact hinv
  | tail _ hmove ih => exact hmove.inv ih

theorem select_inv {s t : State} {i : Nat} (hinv : s.Inv) (h : select i s = some t) : t.Inv := by
  obtain ⟨hcodecs, -⟩ := select_eq_some h
  obtain ⟨hbits, hbuf, -⟩ := select_frame h
  exact ⟨hbuf ▸ hinv.buf_wf, by rw [hbits, hbuf]; exact hinv.buf_range, by rw [hbits, hcodecs]; exact hinv.codecs⟩

theorem State.MovesAt.inv {s t : State} {i : Nat} (hinv : s.Inv) (h : s.MovesAt i t) : t.Inv := by
  obtain ⟨u, hu, hmoves⟩ := h
  exact hmoves.inv (select_inv hinv hu)

theorem resetAll_codecs (s : State) : ∀ c ∈ (resetAll s).codecs, c = Codec.reset := by
  simp only [State.codecs, resetAll_before, resetAll_core, resetAll_after, List.mem_append, List.mem_cons, List.mem_map]
  rintro c (⟨_, -, rfl⟩ | rfl | ⟨_, -, rfl⟩) <;> rfl

/-- Settles O51: a step is made of moves and selections, or resets all instances (`step_cases`), and each of these keeps the invariant. -/
theorem stepKeepsInvariant : Obligations.StepKeepsInvariant := by
  intro s t hinv h
  obtain hmoves | ⟨i, hmoves⟩ | ⟨rest, rfl⟩ := step_cases h
  · exact hmoves.inv hinv
  · exact hmoves.inv hinv
  · refine ⟨hinv.buf_wf, hinv.buf_range, fun c hc => ?_⟩
    rw [resetAll_codecs _ c hc]
    exact Codec.reset_wf _

theorem resetWith_codecs (bits more : Nat) : ∀ c ∈ (State.resetWith bits more).codecs, c = Codec.reset := by
  simp only [State.codecs, State.resetWith, List.nil_append, List.mem_cons, List.mem_replicate]
  rintro c (rfl | ⟨-, rfl⟩) <;> rfl

theorem resetWith_inv (bits more : Nat) : (State.resetWith bits more).Inv :=
  ⟨List.Pairwise.nil, fun _ hx => absurd hx List.not_mem_nil, fun c hc => resetWith_codecs bits more c hc ▸ Codec.reset_wf bits⟩

/-- Settles O52: after reset the buffer is empty and every instance is `Codec.reset`. -/
theorem resetHasInvariant : Obligations.ResetHasInvariant := ⟨resetWith_inv _ _, resetWith_inv⟩

end Sys2Proof.Machine
end

section
/-! The obligations about commands that run at the same time (spec/20_memory.md, R56 to R62; spec/70_reset_and_hazards.md, R195, R198),
all from the locality of one turn, `tick_local`. -/

namespace Sys2Proof.Machine

/-! ## The buffer behind two turns -/

theorem Memory.read_put_other (m : Memory) {w : Option Host.Cell} {a : Nat} (h : ∀ x ∈ w, x.1 ≠ a) :
    (m.put w).read a = m.read a := by
  cases w with
  | none => rfl
  | some x => exact Memory.read_write_other m x.2 (h x rfl).symm

/-- Writes of turns to different cells commute. -/
theorem Memory.put_comm {m : Memory} (hm : Memory.wf m) {v w : Option Host.Cell} (h : ∀ x ∈ v, ∀ y ∈ w, x.1 ≠ y.1) :
    (m.put v).put w = (m.put w).put v := by
  cases v with
  | none => rfl
  | some x =>
    cases w with
    | none => rfl
    | some y => exact Memory.write_comm hm _ _ (h x rfl y rfl)

/-- Settles O60: the turn reads the same bytes behind the POKE, so it does the same (`tick_local`), and its write and the POKE are of
different cells. -/
theorem pokeOutsideAccessSetCommutes : Obligations.PokeOutsideAccessSetCommutes := by
  intro s a b hinv ha hwrite hread
  obtain ⟨w, hw, hlocal⟩ := tick_local hinv.core.engine
  have hbehind := hlocal { s with buf := s.buf.write a b } rfl rfl fun x hx =>
    Memory.read_write_other _ _ (by rintro rfl; exact hread hx)
  have hself := hlocal s rfl rfl fun _ _ => rfl
  have hcomm : (s.buf.write a b).put w = (s.buf.put w).write a b :=
    Memory.put_comm hinv.buf_wf (v := some (a, b)) (w := w) (by rintro _ ⟨⟩ y hy rfl; exact hwrite (hw y hy))
  rw [funext advance_eq_tick, bufWrite_of_lt b ha, andThen_next, hbehind]
  conv_rhs => rw [hself, andThen_assoc]
  congr 1
  funext t
  have hpoke := bufWrite_of_lt (s := { s with core := t.core, buf := s.buf.put w }) b ha
  rw [andThen_next, hpoke, ← hcomm]

/-! ## What a turn does to its access sets -/

section
variable {s t : State}

/-- What an ENCODE may still write after a turn it may before (R56). -/
theorem encodeTick_mayWrite {e : EncState} (h : encodeTick e s = .next t) {a : Nat} (ha : t.core.engine.mayWrite a) :
    (Engine.encoding e).mayWrite a := by
  obtain ⟨hp, hf, -, rfl⟩ | ⟨hp, hf, -, rfl⟩ | ⟨hp, rfl⟩ | ⟨left, hp, -, rfl⟩ | ⟨hp, rfl⟩ := encodeTick_cases h
  · exact absurd ha (Engine.mayWrite_done rfl)
  · have := (Engine.mayWrite_writing rfl).1 ha
    rw [Engine.mayWrite_writing hp, sizeOfMagnitude_continuation hf]
    dsimp only at this; omega
  · cases ha
  · have := (Engine.mayWrite_short rfl).1 ha
    rw [Engine.mayWrite_short hp]
    dsimp only at this; omega
  · cases ha

/-- A byte that DECODE consumes leaves no more to read: the cells behind it, if it is a continuation byte (R57). -/
theorem mayRead_of_consume {m : Memory} {d : DecState} {b : Byte} (hp : d.phase = .accumulating)
    (hb : m.read (d.base + d.k) = some b) {a : Nat} (ha : (Engine.decoding (consume b d)).mayRead m a) :
    (Engine.decoding d).mayRead m a ∧ a ≠ d.base + d.k := by
  obtain ⟨hflag, -, heq⟩ | ⟨-, -, heq⟩ | ⟨-, heq⟩ := consume_cases b d <;> rw [heq] at ha
  · obtain ⟨hfrom, hlimit, hten, hcont⟩ := (Engine.mayRead_accumulating (by exact hp)).1 ha
    dsimp only at hfrom hlimit hten hcont
    refine ⟨(Engine.mayRead_accumulating hp).2 ⟨by omega, hlimit, hten, fun x hx hxa => ?_⟩, by omega⟩
    rcases Nat.eq_or_lt_of_le hx with rfl | hx
    · exact ⟨b, hb, hflag⟩
    · exact hcont x hx hxa
  · exact absurd ha (Engine.mayRead_failed rfl)
  · exact absurd ha (Engine.mayRead_done rfl)

/-- A turn adds nothing to what its command still accesses (R56, R57). -/
theorem tick_ahead (h : tick s = .next t) : (∀ a, t.core.engine.mayWrite a → s.core.engine.mayWrite a) ∧
    ∀ a, t.core.engine.mayRead t.buf a → s.core.engine.mayRead s.buf a := by
  obtain ⟨-, rfl⟩ | ⟨e, he, h⟩ | ⟨d, he, h⟩ := tick_cases h
  · exact ⟨fun _ => id, fun _ => id⟩
  · rw [he]
    refine ⟨fun a => encodeTick_mayWrite h, fun a ha => ?_⟩
    obtain ⟨e', he', -⟩ | ⟨hidle, -⟩ := encodeTick_finalResults h
    · rw [he'] at ha; cases ha
    · rw [hidle] at ha; cases ha
  · rw [he]
    obtain ⟨-, -, rfl⟩ | ⟨hp, -, b, hb, rfl⟩ | ⟨-, rfl⟩ | ⟨why, -, rfl⟩ := decodeTick_cases h
    · exact ⟨fun _ => False.elim, fun a ha => absurd ha (Engine.mayRead_failed rfl)⟩
    · exact ⟨fun _ => False.elim, fun a ha => (mayRead_of_consume hp hb ha).1⟩
    · exact ⟨fun _ => False.elim, fun _ => False.elim⟩
    · exact ⟨fun _ => False.elim, fun _ => False.elim⟩

/-- What DECODE has read and what it still reads is one set, whichever transition a byte makes (R57). -/
theorem readSet_consume {bits : Nat} {m : Memory} {d : DecState} {b : Byte} (hwf : d.Wf bits) (hp : d.phase = .accumulating)
    (hlt : d.base + d.k < d.limit) (hb : m.read (d.base + d.k) = some b) (a : Nat) :
    (Engine.decoding (consume b d)).readSet m a ↔ (Engine.decoding d).readSet m a := by
  obtain ⟨-, -, hk⟩ := (DecState.wf_accumulating hp).1 hwf
  have hread : (Engine.decoding d).hasRead a ↔ d.base ≤ a ∧ a < d.base + d.k := by
    simp [Engine.hasRead, DecState.bytesRead, hp]
  have hread' : (Engine.decoding (consume b d)).hasRead a ↔ d.base ≤ a ∧ a < d.base + (d.k + 1) := by
    obtain ⟨-, -, heq⟩ | ⟨-, -, heq⟩ | ⟨-, heq⟩ := consume_cases b d <;>
      simp [heq, Engine.hasRead, DecState.bytesRead, hp, consumeFinal]
  constructor
  · rintro (hdone | hahead)
    · rw [hread'] at hdone
      rcases Nat.lt_or_ge a (d.base + d.k) with hlow | hcursor
      · exact .inl (hread.2 ⟨hdone.1, hlow⟩)
      · obtain rfl : a = d.base + d.k := by omega
        exact .inr (Engine.mayRead_cursor hp hlt hk)
    · exact .inr (mayRead_of_consume hp hb hahead).1
  · rintro (hdone | hahead)
    · rw [hread] at hdone
      exact .inl (hread'.2 ⟨hdone.1, by omega⟩)
    · obtain ⟨hfrom, hlimit, hten, hcont⟩ := (Engine.mayRead_accumulating hp).1 hahead
      rcases Nat.eq_or_lt_of_le hfrom with rfl | hbeyond
      · exact .inl (hread'.2 ⟨by omega, by omega⟩)
      · obtain ⟨b', hb', hflag⟩ := hcont _ le_rfl hbeyond
        obtain rfl : b = b' := Option.some.inj (hb.symm.trans hb')
        obtain ⟨-, -, heq⟩ | ⟨-, hninth, -⟩ | ⟨hfinal, -⟩ := consume_cases b d
        · rw [heq]
          refine .inr ((Engine.mayRead_accumulating (by exact hp)).2 ⟨hbeyond, hlimit, hten, fun x hx => hcont x ?_⟩)
          dsimp only at hx; omega
        · omega
        · rw [continuationFlag, hfinal] at hflag; cases hflag

/-- A byte written goes from what is to come to what is done (R56): the set stays. -/
theorem writeSet_of_byte_written {e e' : EncState} {a : Nat} (hbase : e'.base = e.base) (hk : e'.k = e.k + 1)
    (hcursor : (Engine.encoding e).mayWrite (e.base + e.k))
    (hahead : (Engine.encoding e').mayWrite a ↔ (Engine.encoding e).mayWrite a ∧ a ≠ e.base + e.k) :
    (Engine.encoding e').writeSet a ↔ (Engine.encoding e).writeSet a := by
  have hwritten : (Engine.encoding e').written a ↔ (Engine.encoding e).written a ∨ a = e.base + e.k := by
    simp only [Engine.written, hbase, hk]; omega
  rw [Engine.writeSet, Engine.writeSet, hwritten, hahead]
  by_cases ha : a = e.base + e.k
  · subst ha; simp [hcursor]
  · simp [ha]

/-- No turn changes the set of cells an ENCODE writes (R56). -/
theorem encodeTick_writeSet {e : EncState} (h : encodeTick e s = .next t) (hbusy : t.core.engine ≠ .idle) (a : Nat) :
    t.core.engine.writeSet a ↔ (Engine.encoding e).writeSet a := by
  have hsize := sizeOfMagnitude_pos e.m
  obtain ⟨hp, hf, -, rfl⟩ | ⟨hp, hf, -, rfl⟩ | ⟨hp, rfl⟩ | ⟨left, hp, -, rfl⟩ | ⟨hp, rfl⟩ := encodeTick_cases h
  · refine writeSet_of_byte_written rfl rfl ((Engine.mayWrite_writing hp).2 (by omega)) ?_
    rw [Engine.mayWrite_writing hp, sizeOfMagnitude_final hf]
    exact iff_of_false (Engine.mayWrite_done rfl) (by omega)
  · refine writeSet_of_byte_written rfl rfl ((Engine.mayWrite_writing hp).2 (by omega)) ?_
    rw [Engine.mayWrite_writing hp, Engine.mayWrite_writing rfl, sizeOfMagnitude_continuation hf]
    dsimp only; omega
  · exact absurd rfl hbusy
  · refine writeSet_of_byte_written rfl rfl ((Engine.mayWrite_short hp).2 (by omega)) ?_
    rw [Engine.mayWrite_short hp, Engine.mayWrite_short rfl]
    dsimp only; omega
  · exact absurd rfl hbusy

/-- While a command runs, no turn of it changes its access sets (R56, R57). -/
theorem tick_accessSets (hwf : s.core.engine.Wf s.addrBits) (h : tick s = .next t) (hbusy : t.core.engine ≠ .idle) (a : Nat) :
    (t.core.engine.writeSet a ↔ s.core.engine.writeSet a) ∧
      (t.core.engine.readSet t.buf a ↔ s.core.engine.readSet s.buf a) := by
  obtain ⟨-, rfl⟩ | ⟨e, he, h⟩ | ⟨d, he, h⟩ := tick_cases h
  · exact ⟨Iff.rfl, Iff.rfl⟩
  · rw [he]
    refine ⟨encodeTick_writeSet h hbusy a, ?_⟩
    obtain ⟨e', he', -⟩ | ⟨hidle, -⟩ := encodeTick_finalResults h
    · rw [he']; exact Iff.rfl
    · exact absurd hidle hbusy
  · rw [he] at hwf ⊢
    obtain ⟨hp, hend, rfl⟩ | ⟨hp, hlt, b, hb, rfl⟩ | ⟨-, rfl⟩ | ⟨why, -, rfl⟩ := decodeTick_cases h
    · refine ⟨Iff.rfl, ?_⟩
      have hread : (Engine.decoding (exhausted d)).hasRead a ↔ (Engine.decoding d).hasRead a := by
        simp [Engine.hasRead, DecState.bytesRead, hp, exhausted]
      refine or_congr hread (iff_of_false (Engine.mayRead_failed rfl) fun ha => ?_)
      obtain ⟨hfrom, hlimit, -⟩ := (Engine.mayRead_accumulating hp).1 ha
      omega
    · exact ⟨Iff.rfl, readSet_consume hwf hp hlt hb a⟩
    · exact absurd rfl hbusy
    · exact absurd rfl hbusy

end

/-! ## Commands whose accesses are apart -/

/-- Two commands are apart with respect to the cells `W` writes and `R` reads: neither writes a cell of the other's. -/
def Engine.Apart (W : Engine → Nat → Prop) (R : Engine → Memory → Nat → Prop) (m : Memory) (x y : Engine) : Prop :=
  ∀ a, (W x a → ¬ W y a ∧ ¬ R y m a) ∧ (W y a → ¬ R x m a)

/-- Any two instances' commands are apart. -/
def State.Apart (W : Engine → Nat → Prop) (R : Engine → Memory → Nat → Prop) (s : State) : Prop :=
  ∀ (i j : Nat) (c d : Codec), i ≠ j → s.codecs[i]? = some c → s.codecs[j]? = some d →
    Engine.Apart W R s.buf c.engine d.engine

theorem State.raceFree_iff_apart {s : State} : s.RaceFree ↔ s.Apart Engine.writeSet Engine.readSet := Iff.rfl

theorem State.disjointAhead_iff_apart {s : State} : s.DisjointAhead ↔ s.Apart Engine.mayWrite Engine.mayRead := Iff.rfl

/-- Where every command accesses no more than the instance's command did before, commands apart stay apart. -/
theorem State.Apart.of_le {W W' : Engine → Nat → Prop} {R R' : Engine → Memory → Nat → Prop} {s t : State} (h : s.Apart W R)
    (hle : ∀ (j : Nat) (d' : Codec), t.codecs[j]? = some d' → ∃ d, s.codecs[j]? = some d ∧
      (∀ a, W' d'.engine a → W d.engine a) ∧ ∀ a, R' d'.engine t.buf a → R d.engine s.buf a) : t.Apart W' R' := by
  intro i j c' d' hij hc' hd' a
  obtain ⟨c, hc, hcw, hcr⟩ := hle i c' hc'
  obtain ⟨d, hd, hdw, hdr⟩ := hle j d' hd'
  obtain ⟨hcd, hdc⟩ := h i j c d hij hc hd a
  exact ⟨fun hx => ⟨fun hy => (hcd (hcw a hx)).1 (hdw a hy), fun hy => (hcd (hcw a hx)).2 (hdr a hy)⟩,
    fun hy hx => hdc (hdw a hy) (hcr a hx)⟩

/-- Settles O56: no turn changes an access set (`tick_accessSets`), and what is still to come is part of the set. -/
theorem accessSetsAreFixed : Obligations.AccessSetsAreFixed := by
  refine ⟨fun s t hwf h hbusy a => tick_accessSets hwf (advance_eq_tick s ▸ h) hbusy a, fun s h => ?_⟩
  exact State.Apart.of_le h fun j d hd => ⟨d, hd, fun _ => Engine.writeSet_of_mayWrite, fun _ => Engine.readSet_of_mayRead⟩

/-! ## The turn of one instance of several -/

/-- The turn of instance `i` leaves `c` in its place and writes the cell `w`, or none, and nothing else changes but which instance is
selected. -/
structure State.Turned (i : Nat) (c : Codec) (w : Option Host.Cell) (s t : State) : Prop where
  codecs : t.codecs = s.codecs.set i c
  buf : t.buf = s.buf.put w
  addrBits : t.addrBits = s.addrBits
  script : t.script = s.script
  answer : t.answer = s.answer
  draws : t.draws = s.draws
  record : t.record = s.record

theorem State.turned_of_select {i : Nat} {s u : State} (h : select i s = some u) (c : Codec) (w : Option Host.Cell) :
    s.Turned i c w { u with core := c, buf := u.buf.put w } := by
  obtain ⟨hcodecs, rfl, -⟩ := select_eq_some h
  obtain ⟨hbits, hbuf, hscript, hanswer, hdraws, hrecord⟩ := select_frame h
  refine ⟨?_, congrArg (Memory.put · w) hbuf, hbits, hscript, hanswer, hdraws, hrecord⟩
  rw [← hcodecs]
  simp [State.codecs]

section
variable {i j : Nat} {c d : Codec} {v w : Option Host.Cell} {s t : State}

theorem State.Turned.getElem?_ne (h : s.Turned i c w t) (hij : i ≠ j) : t.codecs[j]? = s.codecs[j]? := by
  rw [h.codecs, List.getElem?_set_ne hij]

/-- A cell that the turn does not write reads as before. -/
theorem State.Turned.read (h : s.Turned i c w t) {a : Nat} (ha : ∀ x ∈ w, x.1 ≠ a) : t.buf.read a = s.buf.read a := by
  rw [h.buf, Memory.read_put_other _ ha]

/-- A turn of one instance of several is the turn of its command (`tick_local`): in any other state with the same instance of that number,
and the same bytes where it still reads, it does the same. -/
theorem advanceAt_local (hc : s.codecs[i]? = some c) (hwf : c.engine.Wf s.addrBits) (h : advanceAt i s = .next t) :
    ∃ (c' : Codec) (w : Option Host.Cell), (∀ x ∈ w, c.engine.mayWrite x.1) ∧ s.Turned i c' w t ∧
      ∀ r : State, r.codecs[i]? = some c → r.addrBits = s.addrBits →
        (∀ a, c.engine.mayRead s.buf a → r.buf.read a = s.buf.read a) →
        ∃ u, advanceAt i r = .next u ∧ r.Turned i c' w u := by
  obtain ⟨u, hu, hturn⟩ := advanceAt_eq_next.1 h
  obtain ⟨-, -, hcore, -⟩ := select_eq_some hu
  obtain rfl : c = u.core := Option.some.inj (hc.symm.trans hcore)
  obtain ⟨hbits, hbuf, -⟩ := select_frame hu
  obtain ⟨w, hw, hlocal⟩ := tick_local (hbits ▸ hwf)
  have hturned : s.Turned i t.core w t := by
    rw [hlocal.eq hturn]
    exact State.turned_of_select hu t.core w
  refine ⟨t.core, w, hw, hturned, fun r hr hrbits hreads => ?_⟩
  obtain ⟨v, hv, hvcore⟩ := select_of_getElem? hr
  obtain ⟨hvbits, hvbuf, -⟩ := select_frame hv
  have hturn' := hlocal.next hturn hvcore (by rw [hvbits, hrbits, hbits]) fun a ha => by
    rw [hbuf] at ha ⊢
    rw [hvbuf]
    exact hreads a ha
  exact ⟨_, advanceAt_eq_next.2 ⟨v, hv, hturn'⟩, State.turned_of_select hv _ w⟩

end

/-- Two states with the same instances, buffer and host side; only which instance is selected may differ. -/
structure State.SameView (s t : State) : Prop where
  codecs : t.codecs = s.codecs
  buf : t.buf = s.buf
  addrBits : t.addrBits = s.addrBits
  script : t.script = s.script
  answer : t.answer = s.answer
  draws : t.draws = s.draws
  record : t.record = s.record

theorem State.SameView.refl (s : State) : s.SameView s := ⟨rfl, rfl, rfl, rfl, rfl, rfl, rfl⟩

theorem State.SameView.trans {s t u : State} (h : s.SameView t) (h' : t.SameView u) : s.SameView u :=
  ⟨h'.codecs.trans h.codecs, h'.buf.trans h.buf, h'.addrBits.trans h.addrBits, h'.script.trans h.script,
    h'.answer.trans h.answer, h'.draws.trans h.draws, h'.record.trans h.record⟩

/-- What is selected does not depend on what was selected before. -/
theorem State.SameView.select_eq {s t : State} (h : s.SameView t) (i : Nat) : select i t = select i s := by
  rw [Machine.select_eq, Machine.select_eq, h.codecs]
  congr 1
  funext c
  rw [h.buf, h.addrBits, h.script, h.answer, h.draws, h.record]

theorem State.SameView.advanceAt_eq {s t : State} (h : s.SameView t) (i : Nat) : advanceAt i t = advanceAt i s := by
  rw [advanceAt, advanceAt, h.select_eq]

/-- Turns of two instances that write different cells, in either order. -/
theorem State.Turned.comm {i j : Nat} {c d : Codec} {v w : Option Host.Cell} {s t u t' u' : State} (hi : s.Turned i c v t)
    (hj : t.Turned j d w u) (hj' : s.Turned j d w t') (hi' : t'.Turned i c v u') (hij : i ≠ j) (hwf : Memory.wf s.buf)
    (hvw : ∀ x ∈ v, ∀ y ∈ w, x.1 ≠ y.1) : u.SameView u' where
  codecs := by rw [hi'.codecs, hj'.codecs, hj.codecs, hi.codecs, List.set_comm _ _ hij]
  buf := by rw [hi'.buf, hj'.buf, hj.buf, hi.buf, Memory.put_comm hwf hvw]
  addrBits := by rw [hi'.addrBits, hj'.addrBits, hj.addrBits, hi.addrBits]
  script := by rw [hi'.script, hj'.script, hj.script, hi.script]
  answer := by rw [hi'.answer, hj'.answer, hj.answer, hi.answer]
  draws := by rw [hi'.draws, hj'.draws, hj.draws, hi.draws]
  record := by rw [hi'.record, hj'.record, hj.record, hi.record]

theorem State.Inv.engine_wf {s : State} (h : s.Inv) {i : Nat} {c : Codec} (hc : s.codecs[i]? = some c) :
    c.engine.Wf s.addrBits := (h.codecs c (List.mem_of_getElem? hc)).engine

/-- The turns of two instances whose commands are apart in what they still access commute: neither turn writes a cell that the other
reads or writes. -/
theorem advanceAt_comm {s t u : State} {i j : Nat} {c d : Codec} (hinv : s.Inv) (hij : i ≠ j) (hc : s.codecs[i]? = some c)
    (hd : s.codecs[j]? = some d) (hapart : c.engine.DisjointAhead s.buf d.engine) (ht : advanceAt i s = .next t)
    (hu : advanceAt j t = .next u) :
    ∃ t' u', advanceAt j s = .next t' ∧ advanceAt i t' = .next u' ∧ u.SameView u' := by
  obtain ⟨c', v, hv, hi, hlocali⟩ := advanceAt_local hc (hinv.engine_wf hc) ht
  have hdt : t.codecs[j]? = some d := (hi.getElem?_ne hij).trans hd
  obtain ⟨d', w, hw, hj, hlocalj⟩ := advanceAt_local hdt (hi.addrBits ▸ hinv.engine_wf hd) hu
  have hunread : ∀ a, d.engine.mayRead s.buf a → ∀ x ∈ v, x.1 ≠ a := by
    rintro _ ha x hx rfl
    exact ((hapart _).1 (hv x hx)).2 ha
  have hreadsj : ∀ a, d.engine.mayRead t.buf a → s.buf.read a = t.buf.read a := fun a ha => by
    have hmono := Engine.mayRead_mono (fun x hx hr => hx (hi.read (hunread x hr))) ha
    exact (hi.read (hunread a hmono)).symm
  obtain ⟨t', ht', hj'⟩ := hlocalj s hd hi.addrBits.symm hreadsj
  have hreadsi : ∀ a, c.engine.mayRead s.buf a → t'.buf.read a = s.buf.read a := fun a ha =>
    hj'.read (by rintro x hx rfl; exact (hapart _).2 (hw x hx) ha)
  obtain ⟨u', hu', hi'⟩ := hlocali t' ((hj'.getElem?_ne hij.symm).trans hc) hj'.addrBits hreadsi
  refine ⟨t', u', ht', hu', hi.comm hj hj' hi' hij hinv.buf_wf fun x hx y hy hxy => ?_⟩
  exact ((hapart x.1).1 (hv x hx)).1 (hxy ▸ hw y hy)

/-- Settles O57, by `advanceAt_comm`. -/
theorem disjointCommandsCommute : Obligations.DisjointCommandsCommute := by
  intro s t u i j c d hinv hij hc hd hapart ht hu
  obtain ⟨t', u', ht', hu', hsame⟩ := advanceAt_comm hinv hij hc hd hapart ht hu
  exact ⟨t', u', ht', hu', hsame.codecs, hsame.buf, hsame.addrBits, hsame.script, hsame.answer, hsame.draws, hsame.record⟩

/-! ## Commands that do not race go on not to -/

theorem advanceAt_inv {s t : State} {i : Nat} (hinv : s.Inv) (h : advanceAt i s = .next t) : t.Inv :=
  (advanceAt_moves h).inv hinv

/-- What stays apart when instance `i` makes its turn: the accesses of its command do not grow (`hown`), the cell it writes is of its own
`W` (`hwrites`), and so no other command reads it, and what another reads stays what it was (`hothers`). -/
theorem State.Apart.advanceAt {W : Engine → Nat → Prop} {R : Engine → Memory → Nat → Prop} {s t : State} {i : Nat}
    (hapart : s.Apart W R) (hinv : s.Inv) (h : advanceAt i s = .next t)
    (hown : ∀ {u v : State}, u.core.engine.Wf u.addrBits → tick u = .next v →
      (∀ a, W v.core.engine a → W u.core.engine a) ∧ ∀ a, R v.core.engine v.buf a → R u.core.engine u.buf a)
    (hwrites : ∀ {eng : Engine} {a : Nat}, eng.mayWrite a → W eng a)
    (hothers : ∀ {eng : Engine} {m m' : Memory}, (∀ x, m'.read x ≠ m.read x → ¬ R eng m x) → ∀ {a}, R eng m' a → R eng m a) :
    t.Apart W R := by
  obtain ⟨u, hu, hturn⟩ := advanceAt_eq_next.1 h
  obtain ⟨hcodecs, rfl, hcore, -⟩ := select_eq_some hu
  obtain ⟨hbits, hbuf, -⟩ := select_frame hu
  obtain ⟨c', w, hw, hturned, -⟩ := advanceAt_local hcore (hinv.engine_wf hcore) h
  have huwf : u.core.engine.Wf u.addrBits := hbits ▸ hinv.engine_wf hcore
  refine hapart.of_le fun j d' hd' => ?_
  by_cases hj : u.before.length = j
  · subst hj
    obtain rfl : t.core = d' := by
      have hlength := (List.getElem?_eq_some_iff.1 hcore).1
      rw [(tick_sameAround hturn).codecs, hcodecs, List.getElem?_set_self hlength] at hd'
      exact Option.some.inj hd'
    exact ⟨u.core, hcore, hbuf ▸ hown huwf hturn⟩
  · rw [hturned.getElem?_ne hj] at hd'
    refine ⟨d', hd', fun _ => id, fun a => hothers fun x hx hr => hx (hturned.read ?_)⟩
    rintro y hy rfl
    exact ((hapart _ _ _ _ hj hcore hd' y.1).1 (hwrites (hw y hy))).2 hr

theorem advanceAt_raceFree {s t : State} {i : Nat} (hinv : s.Inv) (hfree : s.RaceFree) (h : advanceAt i s = .next t) :
    t.RaceFree := by
  refine State.Apart.advanceAt hfree hinv h (fun {u v} hwf hturn => ?_) Engine.writeSet_of_mayWrite Engine.readSet_mono
  by_cases hidle : v.core.engine = .idle
  · rw [hidle]
    exact ⟨fun a ha => absurd ha (Engine.not_writeSet_idle a), fun a ha => absurd ha (Engine.not_readSet_idle _ a)⟩
  · exact ⟨fun a => (tick_accessSets hwf hturn hidle a).1.1, fun a => (tick_accessSets hwf hturn hidle a).2.1⟩

theorem advanceAt_disjointAhead {s t : State} {i : Nat} (hinv : s.Inv) (hapart : s.DisjointAhead)
    (h : advanceAt i s = .next t) : t.DisjointAhead :=
  State.Apart.advanceAt hapart hinv h (fun _ hturn => tick_ahead hturn) id Engine.mayRead_mono

/-- A POKE of a cell of no access set is no race (R195). -/
theorem bufWrite_raceFree {s t : State} {a : Nat} {b : Byte} (hfree : s.RaceFree) (hsafe : s.PokeSafe a)
    (h : bufWrite s a b = .next t) : t.RaceFree := by
  obtain ⟨-, rfl⟩ := bufWrite_eq_next.1 h
  refine State.Apart.of_le hfree fun j d hd => ⟨d, hd, fun _ => id, fun x => Engine.readSet_mono fun y hy hr => hy ?_⟩
  exact Memory.read_write_other _ _ (by rintro rfl; exact (hsafe d (List.mem_of_getElem? hd)).2 hr)

/-- Settles O58: no access set grows, and no cell that is written is in another's (`State.Apart.advanceAt`). -/
theorem disjointCommandsStayDisjoint : Obligations.DisjointCommandsStayDisjoint :=
  ⟨fun _ _ _ => advanceAt_raceFree, fun _ _ _ _ => bufWrite_raceFree, fun _ _ _ => advanceAt_disjointAhead⟩

/-! ## Any order -/

theorem runTurns_sameView {s t r : State} {xs : List Nat} (hsame : s.SameView r) (h : runTurns xs s = .next t) :
    ∃ u, runTurns xs r = .next u ∧ t.SameView u := by
  cases xs with
  | nil => cases h; exact ⟨r, rfl, hsame⟩
  | cons i rest => exact ⟨t, by rw [runTurns, hsame.advanceAt_eq]; exact h, .refl t⟩

/-- By induction on the permutation: a swap of two neighbours is `advanceAt_comm`, behind a common first turn the hypotheses still hold. -/
theorem runTurns_perm {s t : State} {xs ys : List Nat} (hinv : s.Inv) (hapart : s.DisjointAhead) (hperm : xs.Perm ys)
    (h : runTurns xs s = .next t) : ∃ u, runTurns ys s = .next u ∧ t.SameView u := by
  induction hperm generalizing s t with
  | nil => exact ⟨t, h, .refl t⟩
  | cons i _ ih =>
    obtain ⟨r, hr, hrest⟩ := andThen_eq_next.1 h
    obtain ⟨u, hu, hsame⟩ := ih (advanceAt_inv hinv hr) (advanceAt_disjointAhead hinv hapart hr) hrest
    exact ⟨u, andThen_eq_next.2 ⟨r, hr, hu⟩, hsame⟩
  | swap i j rest =>
    obtain ⟨r, hr, hrest⟩ := andThen_eq_next.1 h
    obtain ⟨q, hq, hrest⟩ := andThen_eq_next.1 hrest
    by_cases hji : j = i
    · subst hji; exact ⟨t, h, .refl t⟩
    · obtain ⟨a, ha, -⟩ := advanceAt_eq_next.1 hr
      obtain ⟨b, hb, -⟩ := advanceAt_eq_next.1 hq
      obtain ⟨-, -, hc, -⟩ := select_eq_some ha
      obtain ⟨-, -, hd, -⟩ := select_eq_some hb
      rw [(advanceAt_moves hr).getElem?_ne (Ne.symm hji)] at hd
      obtain ⟨r', q', hr', hq', hsame⟩ := advanceAt_comm hinv hji hc hd (hapart _ _ _ _ hji hc hd) hr hq
      obtain ⟨u, hu, hview⟩ := runTurns_sameView hsame hrest
      exact ⟨u, andThen_eq_next.2 ⟨r', hr', andThen_eq_next.2 ⟨q', hq', hu⟩⟩, hview⟩
  | trans _ _ ih ih' =>
    obtain ⟨u, hu, hsame⟩ := ih hinv hapart h
    obtain ⟨v, hv, hsame'⟩ := ih' hinv hapart hu
    exact ⟨v, hv, hsame.trans hsame'⟩

/-- Settles O59, by `runTurns_perm`. -/
theorem disjointCommandsRunInAnyOrder : Obligations.DisjointCommandsRunInAnyOrder := by
  intro s t xs ys hinv hapart hperm h
  obtain ⟨u, hu, hsame⟩ := runTurns_perm hinv hapart hperm h
  exact ⟨u, hu, hsame.codecs, hsame.buf, hsame.addrBits, hsame.script, hsame.answer, hsame.draws, hsame.record⟩

end Sys2Proof.Machine
end

section
/-! The obligations about magnitudes and byte counts (spec/40_encoder.md, R100 to R104, R109, R111; spec/30_encoding.md, R76), all from
one fact: a magnitude takes at most `n` bytes exactly when it is below 2^(7n-1). -/

namespace Sys2Proof.Machine

/-! ## The magnitude -/

/-- The magnitude is the absolute value of the pattern (R100). -/
theorem magnitude_eq_abs (v : Word) : magnitude v = v.abs := by
  rw [magnitude, isNegative_eq_msb, neg64_eq_neg, BitVec.abs_eq]

theorem neg64_int64Min : neg64 int64Min = int64Min := by decide

theorem neg64_zero : neg64 0#64 = 0#64 := by decide

/-- Unless the negation wraps, it flips the sign (R9). -/
theorem isNegative_neg64 {v : Word} (h0 : v ≠ 0#64) (hmin : v ≠ int64Min) : isNegative (neg64 v) = !isNegative v := by
  rw [isNegative_eq_msb, isNegative_eq_msb, neg64_eq_neg]
  exact BitVec.msb_neg_of_ne_intMin_of_ne_zero hmin h0

/-- A value and its negation have one magnitude (R111). -/
theorem magnitude_neg64 (v : Word) : magnitude (neg64 v) = magnitude v := by
  by_cases h0 : v = 0#64
  · rw [h0, neg64_zero]
  · by_cases hmin : v = int64Min
    · rw [hmin, neg64_int64Min]
    · rw [magnitude, magnitude, isNegative_neg64 h0 hmin, neg64_neg64]
      cases isNegative v <;> rfl

/-- The magnitude, read unsigned, is the absolute value of the signed reading (R100). -/
theorem magnitude_toNat (v : Word) : (magnitude v).toNat = v.toInt.natAbs := by
  have hv := v.isLt
  rw [magnitude_eq_abs, BitVec.toNat_abs, BitVec.toInt_eq_msb_cond]
  cases v.msb
  · simp
  · simp; omega

/-- Settles O14: the absolute value is `magnitude_toNat`; the two values whose negation wraps are evaluated. -/
theorem magnitudeIsAbsoluteValue : Obligations.MagnitudeIsAbsoluteValue := ⟨magnitude_toNat, neg64_int64Min, neg64_zero⟩

/-- Settles O13: the size is that of the magnitude, and the magnitude is the same (`magnitude_neg64`). -/
theorem sizeSignSymmetric : Obligations.SizeSignSymmetric := fun v =>
  ⟨magnitude_neg64 v, by rw [encodedSize, encodedSize, magnitude_neg64]⟩

/-! ## The byte count -/

/-- Induction along the groups of a magnitude (R102): a magnitude either fits the final byte or is what the shift leaves and one more group. -/
theorem magnitude_induction {P : Word → Prop} (final : ∀ m, fitsFinal m = true → P m)
    (continuation : ∀ m, fitsFinal m = false → P (shiftGroup m) → P m) (m : Word) : P m := by
  induction h : m.toNat using Nat.strong_induction_on generalizing m with
  | _ n ih =>
    subst h
    cases hf : fitsFinal m with
    | true => exact final m hf
    | false =>
      have hbig : ¬ m.toNat ≤ 63 := by rw [← fitsFinal_iff, hf]; decide
      exact continuation m hf (ih _ (by rw [shiftGroup_toNat]; omega) _ rfl)

theorem sixtyThree_lt_of_not_fitsFinal {m : Word} (h : fitsFinal m = false) : 63 < m.toNat :=
  Nat.lt_of_not_le fun hle => by rw [(fitsFinal_iff m).2 hle] at h; cases h

/-- The row of a magnitude in the table of R76: it takes at most `n` + 1 bytes exactly when it is below 2^(7n+6). -/
theorem sizeOfMagnitude_le_succ_iff (m : Word) (n : Nat) : sizeOfMagnitude m ≤ n + 1 ↔ m.toNat < 2 ^ (7 * n + 6) := by
  induction m using magnitude_induction generalizing n with
  | final m hf =>
    have hsmall : m.toNat ≤ 63 := (fitsFinal_iff m).1 hf
    have hpow : 2 ^ 6 ≤ 2 ^ (7 * n + 6) := Nat.pow_le_pow_right (by decide) (by omega)
    rw [sizeOfMagnitude_final hf]
    exact iff_of_true (by omega) (by omega)
  | continuation m hf ih =>
    have hbig := sixtyThree_lt_of_not_fitsFinal hf
    rw [sizeOfMagnitude_continuation hf]
    cases n with
    | zero =>
      have hpos := sizeOfMagnitude_pos (shiftGroup m)
      exact iff_of_false (by omega) (by simp; omega)
    | succ n =>
      have hpow : 2 ^ (7 * (n + 1) + 6) = 2 ^ (7 * n + 6) * 128 := by ring
      rw [Nat.add_le_add_iff_right, ih, shiftGroup_toNat, hpow, Nat.div_lt_iff_lt_mul (by decide)]

theorem sizeOfMagnitude_le_iff (m : Word) {n : Nat} (hn : 1 ≤ n) : sizeOfMagnitude m ≤ n ↔ m.toNat < 2 ^ (7 * n - 1) := by
  obtain ⟨n, rfl⟩ := Nat.exists_eq_add_of_le' hn
  rw [sizeOfMagnitude_le_succ_iff, show 7 * (n + 1) - 1 = 7 * n + 6 by omega]

/-- Settles O10: exactly `n` is at most `n` and not at most `n` - 1 (`sizeOfMagnitude_le_iff`). -/
theorem sizeAgainstMagnitude : Obligations.SizeAgainstMagnitude := by
  intro v n hn _
  have hpos : 1 ≤ encodedSize v := sizeOfMagnitude_pos _
  rw [← sizeOfMagnitude_le_iff _ hn, ← encodedSize]
  obtain rfl | hmore := Nat.eq_or_lt_of_le hn
  · exact ⟨fun h => ⟨by omega, by omega⟩, fun h => by omega⟩
  · have hlower : 2 ^ (7 * n - 8) ≤ (magnitude v).toNat ↔ ¬ encodedSize v ≤ n - 1 := by
      rw [encodedSize, sizeOfMagnitude_le_iff _ (by omega), not_lt, show 7 * (n - 1) - 1 = 7 * n - 8 by omega]
    rw [hlower]
    omega

/-- Settles O11: the count and the ceiling are at most `n` + 1 for the same `n`, those with the magnitude below 2^(7n+6). -/
theorem sizeClosedForm : Obligations.SizeClosedForm := by
  intro v
  have hceil : ∀ n, encodedSize v ≤ n + 1 ↔ (Nat.size (magnitude v).toNat + 1 + 6) / 7 ≤ n + 1 := by
    intro n
    rw [encodedSize, sizeOfMagnitude_le_succ_iff, ← Nat.size_le]
    omega
  have hpos : 1 ≤ encodedSize v := sizeOfMagnitude_pos _
  have hle := (hceil (encodedSize v - 1)).1 (by omega)
  have hge := (hceil ((Nat.size (magnitude v).toNat + 1 + 6) / 7 - 1)).2 (by omega)
  omega

/-- Settles O12: the range is that of the loop, ten is not at most nine (`sizeOfMagnitude_le_succ_iff`), and more turns change nothing
(`sizeLoop_turns`). -/
theorem sizeRange : Obligations.SizeRange := by
  intro v
  have hten : encodedSize v ≤ 10 := sizeOfMagnitude_le _
  have hnine : encodedSize v ≤ 9 ↔ (magnitude v).toNat < 2 ^ 62 := sizeOfMagnitude_le_succ_iff _ 8
  refine ⟨sizeOfMagnitude_pos _, hten, by omega, fun extra => sizeLoop_turns ?_ extra 1⟩
  exact (magnitude v).isLt.trans_le (by decide)

/-- A count fits the four bits of COUNT (R24). -/
theorem count_toNat {n : Nat} (h : n ≤ 10) : (BitVec.ofNat 4 n).toNat = n := by
  simpa using show n < 16 by omega

/-- SIZE on an idle instance whose VIN holds a value completes with its size (R109). -/
theorem exec_size_of_idle {s : State} {v : Word} (hidle : s.core.engine = .idle) (hv : s.core.vin = some v) :
    exec .size s = .next (finishOk (encodedSize v) none s) := exec_size_eq_next.2 ⟨hidle, v, hv, rfl⟩

/-- Settles O9: SIZE is `finish` with the size of VIN (`exec_size_of_idle`), which on an idle instance replaces the result registers alone. -/
theorem sizeResult : Obligations.SizeResult := by
  intro s v hidle hv
  refine ⟨?_, count_toNat (sizeOfMagnitude_le _)⟩
  rw [exec_size_of_idle hidle hv, finishOk_eq, finish_of_idle hidle]
  rfl

end Sys2Proof.Machine
end

section
/-! The obligations about the bytes of an encoding (spec/40_encoder.md, R106, R112, R114; spec/30_encoding.md, R77): the closed form of
R106, one group at a time, and the sequence it is for the decoder. -/

namespace Sys2Proof.Machine

/-! ## The bytes of a magnitude -/

/-- The bytes of R106 for a sign and a magnitude. -/
def wireBytes (neg : Bool) (m : Word) : List Byte :=
  (List.range (sizeOfMagnitude m)).map fun k =>
    if k + 1 = sizeOfMagnitude m then finalByte neg (m >>> (7 * k)) else continuationByte (m >>> (7 * k))

theorem encodedBytes_eq (v : Word) : encodedBytes v = wireBytes (isNegative v) (magnitude v) := rfl

theorem encodedBytes_getElem? {v : Word} {k : Nat} (hk : k < encodedSize v) :
    (encodedBytes v)[k]? = some (encodedByte v k) := by
  simp [encodedBytes, hk]

@[simp] theorem wireBytes_length (neg : Bool) (m : Word) : (wireBytes neg m).length = sizeOfMagnitude m := by
  simp [wireBytes]

theorem wireBytes_ne_nil (neg : Bool) (m : Word) : wireBytes neg m ≠ [] :=
  List.ne_nil_of_length_pos (by rw [wireBytes_length]; exact sizeOfMagnitude_pos m)

/-- A magnitude that fits the final byte is that byte (R101, R105). -/
theorem wireBytes_final (neg : Bool) {m : Word} (hf : fitsFinal m = true) : wireBytes neg m = [finalByte neg m] := by
  simp [wireBytes, sizeOfMagnitude_final hf]

/-- Any other is a continuation byte and the bytes of what the shift leaves (R102, R105). -/
theorem wireBytes_continuation (neg : Bool) {m : Word} (hf : fitsFinal m = false) :
    wireBytes neg m = continuationByte m :: wireBytes neg (shiftGroup m) := by
  have hpos : sizeOfMagnitude (shiftGroup m) ≠ 0 := Nat.ne_of_gt (sizeOfMagnitude_pos _)
  have hshift (k : Nat) : m >>> (7 * (k + 1)) = shiftGroup m >>> (7 * k) := by
    rw [shiftGroup, ← BitVec.shiftRight_add, Nat.mul_succ, Nat.add_comm]
  rw [wireBytes, sizeOfMagnitude_continuation hf, List.range_succ_eq_map, List.map_cons, List.map_map, wireBytes]
  congr 1
  · simp [hpos]
  · refine List.map_congr_left fun k _ => ?_
    simp [hshift]

/-- The byte of a group is the table's byte of it (R71). -/
theorem continuationByte_eq (m : Word) : continuationByte m = 1#1 ++ m.setWidth 7 := by
  have hbyte : ∀ b : Byte, 0x80#8 ||| (b &&& 0x7F#8) = 1#1 ++ b.setWidth 7 := by decide
  rw [continuationByte, hbyte, BitVec.setWidth_setWidth_of_le m (by decide)]

/-- The final byte is the table's byte of its sign flag and group (R72). -/
theorem finalByte_eq (neg : Bool) (m : Word) : finalByte neg m = 0#1 ++ BitVec.ofBool neg ++ m.setWidth 6 := by
  have hbyte : ∀ b : Byte, (b &&& 0x3F#8) ||| (if neg then 0x40#8 else 0x00#8) = 0#1 ++ BitVec.ofBool neg ++ b.setWidth 6 := by
    cases neg <;> decide
  rw [finalByte, hbyte, BitVec.setWidth_setWidth_of_le m (by decide)]

/-- What a continuation byte carries (R71): its flag, and the low 7 bits of the magnitude. -/
theorem continuationByte_fields (m : Word) :
    (continuationByte m).getLsbD 7 = true ∧ (group7 (continuationByte m)).toNat = m.toNat % 128 := by
  rw [continuationByte_eq]
  obtain ⟨hflag, hgroup⟩ := continuationByte_bits (m.setWidth 7)
  exact ⟨hflag, by rw [hgroup, BitVec.toNat_setWidth]⟩

/-- What a final byte carries (R72): its flags, and the whole of a magnitude that fits. -/
theorem finalByte_fields (neg : Bool) {m : Word} (hf : fitsFinal m = true) : (finalByte neg m).getLsbD 7 = false ∧
    signFlag (finalByte neg m) = neg ∧ (group6 (finalByte neg m)).toNat = m.toNat := by
  have hsmall := (fitsFinal_iff m).1 hf
  rw [finalByte_eq]
  obtain ⟨hflag, hsign, hgroup⟩ := finalByte_bits neg (m.setWidth 6)
  exact ⟨hflag, hsign, by rw [hgroup, BitVec.toNat_setWidth]; omega⟩

/-! ## The sequence they are -/

theorem terminated_wireBytes (neg : Bool) (m : Word) : terminated (wireBytes neg m) = true := by
  induction m using magnitude_induction with
  | final m hf => rw [wireBytes_final neg hf, terminated_singleton]; exact (finalByte_fields neg hf).1
  | continuation m hf ih =>
    rw [wireBytes_continuation neg hf, terminated_cons _ (wireBytes_ne_nil _ _)]
    exact ⟨(continuationByte_fields m).1, ih⟩

theorem carriedSign_wireBytes (neg : Bool) (m : Word) : carriedSign (wireBytes neg m) = neg := by
  induction m using magnitude_induction with
  | final m hf => rw [wireBytes_final neg hf]; exact (finalByte_fields neg hf).2.1
  | continuation m hf ih => rw [wireBytes_continuation neg hf, carriedSign_cons _ (wireBytes_ne_nil _ _), ih]

theorem magnitudeFrom_singleton (i : Nat) (b : Byte) : magnitudeFrom i [b] = (group6 b).toNat * 2 ^ (7 * i) := rfl

/-- The sum of R74 is the magnitude again, in whatever place it begins. -/
theorem magnitudeFrom_wireBytes (neg : Bool) (m : Word) (i : Nat) :
    magnitudeFrom i (wireBytes neg m) = m.toNat * 2 ^ (7 * i) := by
  induction m using magnitude_induction generalizing i with
  | final m hf =>
    obtain ⟨-, -, hgroup⟩ := finalByte_fields neg hf
    rw [wireBytes_final neg hf, magnitudeFrom_singleton, hgroup]
  | continuation m hf ih =>
    have hsplit : m.toNat = m.toNat % 128 + 128 * (m.toNat / 128) := (Nat.mod_add_div _ _).symm
    rw [wireBytes_continuation neg hf, magnitudeFrom_cons _ _ (wireBytes_ne_nil _ _), ih, (continuationByte_fields m).2,
      shiftGroup_toNat, show 7 * (i + 1) = 7 + 7 * i by omega, pow_add]
    conv_rhs => rw [hsplit]
    ring

theorem isSequence_encodedBytes (v : Word) : isSequence (encodedBytes v) = true := by
  have hten : encodedSize v ≤ 10 := sizeOfMagnitude_le _
  rw [isSequence, encodedBytes_length, encodedBytes_eq, terminated_wireBytes]
  simpa using hten

theorem carriedMagnitude_encodedBytes (v : Word) : carriedMagnitude (encodedBytes v) = (magnitude v).toNat := by
  rw [carriedMagnitude, encodedBytes_eq, magnitudeFrom_wireBytes, Nat.mul_zero, pow_zero, Nat.mul_one]

theorem carriedSign_encodedBytes (v : Word) : carriedSign (encodedBytes v) = isNegative v := carriedSign_wireBytes _ _

/-- A value is its magnitude under its sign (R100, R133). -/
theorem signedPattern_magnitude (v : Word) : signedPattern (isNegative v) (magnitude v).toNat = v := by
  rw [signedPattern, BitVec.ofNat_toNat, BitVec.setWidth_eq, magnitude]
  cases isNegative v
  · rfl
  · exact neg64_neg64 v

/-- The bytes of a value stand for it (R139). -/
theorem carriedValue_encodedBytes (v : Word) : carriedValue (encodedBytes v) = v := by
  rw [carriedValue_eq, carriedSign_encodedBytes, ← carriedMagnitude, carriedMagnitude_encodedBytes, signedPattern_magnitude]

/-! ## Canonical sequences -/

/-- The conditions of R77, as a proposition. -/
theorem canonical_iff (bs : List Byte) : canonical bs = true ↔ isSequence bs = true ∧ carriedMagnitude bs < 2 ^ 64 ∧
    (bs.length = 1 ∨ 2 ^ (7 * bs.length - 8) ≤ carriedMagnitude bs) ∧
    (carriedSign bs = true → 1 ≤ carriedMagnitude bs ∧ carriedMagnitude bs ≤ 2 ^ 63) ∧
    (carriedSign bs = false → carriedMagnitude bs ≤ 2 ^ 63 - 1) := by
  unfold canonical
  cases carriedSign bs <;> simp [and_assoc]

theorem isNegative_iff (v : Word) : isNegative v = true ↔ 2 ^ 63 ≤ v.toNat := by
  rw [isNegative_eq_msb, BitVec.msb_eq_decide, decide_eq_true_iff]

/-- The magnitudes of R77: of a negative value 1 to 2^63, of any other below 2^63. -/
theorem magnitude_range (v : Word) : (isNegative v = true → 1 ≤ (magnitude v).toNat ∧ (magnitude v).toNat ≤ 2 ^ 63) ∧
    (isNegative v = false → (magnitude v).toNat ≤ 2 ^ 63 - 1) := by
  have hlt := v.isLt
  refine ⟨fun hneg => ?_, fun hneg => ?_⟩
  · have hbig := (isNegative_iff v).1 hneg
    rw [magnitude, if_pos hneg, neg64, BitVec.toNat_ofNat]
    omega
  · have hsmall : ¬ 2 ^ 63 ≤ v.toNat := by rw [← isNegative_iff, hneg]; decide
    rw [magnitude, hneg]
    exact Nat.le_pred_of_lt (not_le.1 hsmall)

/-- What ENCODE produces is canonical (R77, R114). -/
theorem canonical_encodedBytes (v : Word) : canonical (encodedBytes v) = true := by
  rw [canonical_iff, carriedMagnitude_encodedBytes, carriedSign_encodedBytes, encodedBytes_length]
  refine ⟨isSequence_encodedBytes v, (magnitude v).isLt, ?_, magnitude_range v⟩
  have hpos : 1 ≤ encodedSize v := sizeOfMagnitude_pos _
  rcases Nat.eq_or_lt_of_le hpos with hone | hmore
  · exact .inl hone.symm
  · exact .inr (((sizeAgainstMagnitude v _ hpos (sizeOfMagnitude_le _)).1 rfl).2 hmore)

/-- The sum of R74 begins in a later place with a higher power. -/
theorem magnitudeFrom_succ (i : Nat) (bs : List Byte) : magnitudeFrom (i + 1) bs = 128 * magnitudeFrom i bs := by
  induction bs using terminated.induct generalizing i with
  | case1 => rfl
  | case2 b => rw [magnitudeFrom_singleton, magnitudeFrom_singleton]; ring
  | case3 b rest hne ih => rw [magnitudeFrom_cons _ _ hne, magnitudeFrom_cons _ _ hne, ih]; ring

theorem carriedMagnitude_singleton (b : Byte) : carriedMagnitude [b] = (group6 b).toNat := by
  simp [carriedMagnitude, magnitudeFrom_singleton]

theorem carriedMagnitude_cons {bs : List Byte} (b : Byte) (h : bs ≠ []) :
    carriedMagnitude (b :: bs) = (group7 b).toNat + 128 * carriedMagnitude bs := by
  rw [carriedMagnitude, magnitudeFrom_cons _ _ h, magnitudeFrom_succ, carriedMagnitude]; simp

/-- A group below a magnitude is its low 7 bits, and the shift leaves the rest (R102). -/
theorem group_below {g : BitVec 7} {m : Nat} (h : g.toNat + 128 * m < 2 ^ 64) :
    (BitVec.ofNat 64 (g.toNat + 128 * m)).setWidth 7 = g ∧
      shiftGroup (BitVec.ofNat 64 (g.toNat + 128 * m)) = BitVec.ofNat 64 m := by
  have hg := g.isLt
  have hword : (BitVec.ofNat 64 (g.toNat + 128 * m)).toNat = g.toNat + 128 * m := by rw [BitVec.toNat_ofNat]; omega
  exact ⟨BitVec.eq_of_toNat_eq (by rw [BitVec.toNat_setWidth, hword]; omega),
    BitVec.eq_of_toNat_eq (by rw [shiftGroup_toNat, hword, BitVec.toNat_ofNat]; omega)⟩

/-- Without a padding group (R77) a sequence of more than one byte carries more than fits a final byte, and what its first byte leaves is
without a padding group again. -/
theorem minimal_tail {g m n : Nat} (hg : g < 128) (hn : 0 < n) (h : n + 1 = 1 ∨ 2 ^ (7 * (n + 1) - 8) ≤ g + 128 * m) :
    63 < g + 128 * m ∧ (n = 1 ∨ 2 ^ (7 * n - 8) ≤ m) := by
  have hlower := h.resolve_left (by omega)
  rcases Nat.eq_or_lt_of_le hn with rfl | hmore
  · exact ⟨hlower.trans_lt' (by decide), .inl rfl⟩
  · have hpow : 2 ^ (7 * (n + 1) - 8) = 2 ^ (7 * n - 8) * 128 := by
      rw [show 7 * (n + 1) - 8 = 7 * n - 8 + 7 by omega, pow_add]; rfl
    have hone : 1 ≤ 2 ^ (7 * n - 8) := Nat.one_le_two_pow
    omega

/-- The bytes of a magnitude are the only ones that carry it and its sign without a padding group. By induction over the sequence: its first
byte is the one written, and the rest carries what the shift leaves. -/
theorem wireBytes_carried {bs : List Byte} (hterm : terminated bs = true) (hlt : carriedMagnitude bs < 2 ^ 64)
    (hmin : bs.length = 1 ∨ 2 ^ (7 * bs.length - 8) ≤ carriedMagnitude bs) :
    wireBytes (carriedSign bs) (BitVec.ofNat 64 (carriedMagnitude bs)) = bs := by
  induction bs using terminated.induct with
  | case1 => cases hterm
  | case2 b =>
    have hgroup : (group6 b).toNat < 64 := (group6 b).isLt
    have hfits : fitsFinal (BitVec.ofNat 64 (group6 b).toNat) = true := by
      rw [fitsFinal_iff, BitVec.toNat_ofNat]; omega
    have hlow : (BitVec.ofNat 64 (group6 b).toNat).setWidth 6 = group6 b := BitVec.eq_of_toNat_eq (by simp)
    rw [carriedMagnitude_singleton, wireBytes_final _ hfits, finalByte_eq, hlow]
    exact congrArg (· :: []) (byte_of_final ((terminated_singleton b).1 hterm))
  | case3 b rest hne ih =>
    obtain ⟨hflag, hrest⟩ := (terminated_cons b hne).1 hterm
    rw [carriedMagnitude_cons b hne] at hlt hmin ⊢
    obtain ⟨hbig, hminrest⟩ := minimal_tail (group7 b).isLt (List.length_pos_of_ne_nil hne) hmin
    obtain ⟨hlow, hshift⟩ := group_below hlt
    have hfits : fitsFinal (BitVec.ofNat 64 ((group7 b).toNat + 128 * carriedMagnitude rest)) = false := by
      rw [← Bool.not_eq_true, fitsFinal_iff, BitVec.toNat_ofNat]; omega
    rw [wireBytes_continuation _ hfits, hshift, carriedSign_cons b hne, ih hrest (by omega) hminrest, continuationByte_eq, hlow,
      byte_of_continuation hflag]

/-- A magnitude under a sign that has room for it is that of the pattern (R77, R100). -/
theorem signedPattern_fields {sign : Bool} {m : Nat} (hneg : sign = true → 1 ≤ m ∧ m ≤ 2 ^ 63)
    (hpos : sign = false → m ≤ 2 ^ 63 - 1) :
    isNegative (signedPattern sign m) = sign ∧ magnitude (signedPattern sign m) = BitVec.ofNat 64 m := by
  have hsign : isNegative (signedPattern sign m) = sign := by
    rw [Bool.eq_iff_iff, isNegative_iff]
    cases sign with
    | false =>
      have := hpos rfl
      simp only [signedPattern, Bool.false_eq_true, if_false, BitVec.toNat_ofNat]
      exact iff_of_false (by omega) not_false
    | true =>
      have := hneg rfl
      simp only [signedPattern, if_true, neg64, BitVec.toNat_ofNat]
      exact iff_of_true (by omega) trivial
  refine ⟨hsign, ?_⟩
  rw [magnitude, hsign]
  cases sign with
  | false => rfl
  | true => exact neg64_neg64 _

/-- ENCODE of what a canonical sequence stands for produces the sequence (R77). -/
theorem encodedBytes_carriedValue {bs : List Byte} (h : canonical bs = true) : encodedBytes (carriedValue bs) = bs := by
  obtain ⟨hseq, hlt, hmin, hneg, hpos⟩ := (canonical_iff bs).1 h
  obtain ⟨hterm, -⟩ : terminated bs = true ∧ _ := by simpa [isSequence] using hseq
  obtain ⟨hsign, hmagnitude⟩ := signedPattern_fields hneg hpos
  rw [encodedBytes_eq, carriedValue_eq, ← carriedMagnitude, hsign, hmagnitude, wireBytes_carried hterm hlt hmin]

/-- Settles O26: the bytes of a value are canonical (`canonical_encodedBytes`), and a canonical sequence is the bytes of its value
(`encodedBytes_carriedValue`). -/
theorem canonicalAreTheEncodings : Obligations.CanonicalAreTheEncodings := by
  refine fun bs _ => ⟨⟨fun h => ⟨_, encodedBytes_carriedValue h⟩, ?_⟩, ⟨encodedBytes_carriedValue, fun h => ?_⟩⟩
  · rintro ⟨v, rfl⟩
    exact canonical_encodedBytes v
  · exact h ▸ canonical_encodedBytes _

/-! ## The sign flag -/

theorem finalByte_not (neg : Bool) (m : Word) : finalByte (!neg) m = finalByte neg m ^^^ 0x40#8 := by
  have hbyte : ∀ b : BitVec 6, 0#1 ++ BitVec.ofBool (!neg) ++ b = (0#1 ++ BitVec.ofBool neg ++ b) ^^^ 0x40#8 := by
    cases neg <;> decide
  rw [finalByte_eq, finalByte_eq, hbyte]

/-- The sign is in bit 6 of the final byte and nowhere else (R112). -/
theorem wireBytes_not (neg : Bool) (m : Word) : wireBytes (!neg) m =
    (wireBytes neg m).dropLast ++ ((wireBytes neg m).getLast?.map fun b => b ^^^ 0x40#8).toList := by
  induction m using magnitude_induction with
  | final m hf => rw [wireBytes_final _ hf, wireBytes_final _ hf, finalByte_not]; rfl
  | continuation m hf ih =>
    have hne := wireBytes_ne_nil neg (shiftGroup m)
    rw [wireBytes_continuation _ hf, wireBytes_continuation _ hf, ih, List.dropLast_cons_of_ne_nil hne,
      List.getLast?_cons_of_ne_nil hne, List.cons_append]

/-- Settles O19: negation keeps the magnitude and flips the sign, which is one bit of the bytes (`wireBytes_not`); 0 and INT64_MIN are
their own negations. -/
theorem negationFlipsSignFlag : Obligations.NegationFlipsSignFlag := by
  refine ⟨fun v h0 hmin => ⟨?_, ?_⟩, by rw [neg64_zero], by rw [neg64_int64Min]⟩
  · rw [encodedBytes_length, encodedBytes_length, (sizeSignSymmetric v).2]
  · rw [encodedBytes_eq, encodedBytes_eq, magnitude_neg64, isNegative_neg64 h0 hmin, wireBytes_not]

end Sys2Proof.Machine
end

section
/-! The obligations about ENCODE run as one step (spec/40_encoder.md, R105 to R108, R114; spec/41_decoder.md, R139): what its loop leaves in
the buffer, with room and without. -/

namespace Sys2Proof.Machine

/-! ## The loop -/

theorem drain_encoded {s : State} {e : EncState} (hp : e.phase = .done) (n : Nat) :
    drain (n + 1) (setEngine s (.encoding e)) = .next (finishOk e.k none s) := by
  rw [drain_busy (by simp), tick_encoded rfl hp, andThen_next, drain_idle rfl]
  rfl

/-- The loop of R105, given a turn for each byte and one for `finish`, leaves the bytes of R106. By induction along the groups. -/
theorem drain_writing {m : Word} {neg : Bool} {k base n : Nat} {s : State}
    (hroom : base + k + sizeOfMagnitude m ≤ 2 ^ s.addrBits) (hturns : sizeOfMagnitude m < n) :
    drain n (setEngine s (.encoding ⟨neg, m, k, base, .writing⟩)) =
      .next (finishOk (k + sizeOfMagnitude m) none { s with buf := s.buf.writeBytes (base + k) (wireBytes neg m) }) := by
  induction m using magnitude_induction generalizing k n s with
  | final m hf =>
    rw [sizeOfMagnitude_final hf] at hroom hturns ⊢
    obtain ⟨n, rfl⟩ := Nat.exists_eq_add_of_le' (show 2 ≤ n from hturns)
    rw [drain_busy (by simp), tick_final rfl rfl (by exact hf) (by exact hroom), andThen_next, drain_encoded rfl, wireBytes_final _ hf]
    rfl
  | continuation m hf ih =>
    rw [sizeOfMagnitude_continuation hf] at hroom hturns ⊢
    obtain ⟨n, rfl⟩ := Nat.exists_eq_add_of_le' (show 1 ≤ n by omega)
    have hloop := ih (k := k + 1) (n := n) (s := { s with buf := s.buf.write (base + k) (continuationByte m) })
      (by dsimp only; omega) (by omega)
    rw [drain_busy (by simp), tick_continuation rfl rfl hf (by dsimp only [setEngine_addrBits]; omega), andThen_next,
      wireBytes_continuation _ hf, show k + (sizeOfMagnitude (shiftGroup m) + 1) = k + 1 + sizeOfMagnitude (shiftGroup m) by omega]
    exact hloop

/-- ENCODE_PREFIX of R107 leaves the first bytes of R106, as many as it was given. By induction on their number. -/
theorem drain_prefix {left : Nat} {m : Word} {neg : Bool} {k base n : Nat} {s : State} (hpart : left < sizeOfMagnitude m)
    (hroom : base + k + left ≤ 2 ^ s.addrBits) (hturns : left < n) :
    drain n (setEngine s (.encoding ⟨neg, m, k, base, .short left⟩)) =
      .next (finishError .bufferTooSmall { s with buf := s.buf.writeBytes (base + k) ((wireBytes neg m).take left) }) := by
  induction left generalizing m k n s with
  | zero =>
    obtain ⟨n, rfl⟩ := Nat.exists_eq_add_of_le' hturns
    rw [drain_busy (by simp), tick_prefix_end rfl rfl, andThen_next, drain_idle rfl, List.take_zero]
    rfl
  | succ left ih =>
    have hf : fitsFinal m = false := by
      rw [← Bool.not_eq_true]
      intro hf
      rw [sizeOfMagnitude_final hf] at hpart
      omega
    rw [sizeOfMagnitude_continuation hf] at hpart
    obtain ⟨n, rfl⟩ := Nat.exists_eq_add_of_le' (show 1 ≤ n by omega)
    have hloop := ih (m := shiftGroup m) (k := k + 1) (n := n)
      (s := { s with buf := s.buf.write (base + k) (continuationByte m) }) (by omega) (by dsimp only; omega) (by omega)
    rw [drain_busy (by simp), tick_prefix rfl rfl (by dsimp only [setEngine_addrBits]; omega), andThen_next,
      wireBytes_continuation _ hf, List.take_succ_cons]
    exact hloop

/-! ## The command -/

/-- There is room for the bytes exactly where the capacity of R107 is enough for them. -/
theorem room_iff {p len n : Nat} (hn : 1 ≤ n) : p + n ≤ len ↔ n ≤ capacity p len := by
  unfold capacity
  split <;> omega

section
variable {s t : State} {v : Word} {p len : Nat}

section
variable (hv : s.core.vin = some v) (hpos : s.core.pos = some p) (hlen : s.core.len = some len) (hrange : len ≤ 2 ^ s.addrBits)
include hv hpos hlen hrange

theorem beginEncode_room (hroom : encodedSize v ≤ capacity p len) : beginEncode s =
    .next (setEngine s (.encoding ⟨isNegative v, magnitude v, 0, p, .writing⟩)) := by
  simp [beginEncode, hv, hpos, hlen, withinRange_le _ hrange, hroom.not_gt]

theorem beginEncode_tooSmall (hsmall : capacity p len < encodedSize v) : beginEncode s =
    .next (setEngine { s with draws := s.draws + 1 }
      (.encoding ⟨isNegative v, magnitude v, 0, p, .short (writtenOnFailure (capacity p len) s.draws)⟩)) := by
  simp [beginEncode, hv, hpos, hlen, withinRange_le _ hrange, hsmall]

/-- ENCODE with room writes the bytes of R106 and ends OK (R105). -/
theorem exec_encode_room (hidle : s.core.engine = .idle) (hroom : encodedSize v ≤ capacity p len) : exec .encode s =
    .next (finishOk (encodedSize v) none { s with buf := s.buf.writeBytes p (encodedBytes v) }) := by
  have hten : encodedSize v ≤ 10 := sizeOfMagnitude_le _
  have hend : p + encodedSize v ≤ len := (room_iff (sizeOfMagnitude_pos _)).2 hroom
  rw [exec_encode_eq_begin hidle, beginEncode_room hv hpos hlen hrange hroom, andThen_next,
    drain_writing (n := maxTicks) (hend.trans hrange) (Nat.lt_succ_of_le hten), Nat.zero_add]
  rfl

/-- ENCODE without room writes the first of them and ends with BufferTooSmall (R107). -/
theorem exec_encode_tooSmall (hidle : s.core.engine = .idle) (hsmall : capacity p len < encodedSize v) : exec .encode s =
    .next (finishError .bufferTooSmall { s with
      draws := s.draws + 1
      buf := s.buf.writeBytes p ((encodedBytes v).take (writtenOnFailure (capacity p len) s.draws)) }) := by
  have hten : encodedSize v ≤ 10 := sizeOfMagnitude_le _
  have hwritten := writtenOnFailure_le (capacity p len) s.draws
  rw [exec_encode_eq_begin hidle, beginEncode_tooSmall hv hpos hlen hrange hsmall, andThen_next]
  by_cases hfits : p ≤ len
  · have hend : p + capacity p len = len := by rw [capacity, if_pos hfits]; omega
    exact drain_prefix (hwritten.trans_lt hsmall) (by dsimp only; omega) (by show _ < 11; omega)
  · have hnone : writtenOnFailure (capacity p len) s.draws = 0 := by
      rw [capacity, if_neg hfits]; rfl
    rw [hnone, List.take_zero, maxTicks, drain_busy (by simp), tick_prefix_end rfl rfl, andThen_next, drain_idle rfl]
    rfl

end

/-- The two ends of an ENCODE that answers a next state (R105, R107). -/
theorem exec_encode_cases (hv : s.core.vin = some v) (hpos : s.core.pos = some p) (hlen : s.core.len = some len)
    (h : exec .encode s = .next t) : s.core.engine = .idle ∧ len ≤ 2 ^ s.addrBits ∧
      ((encodedSize v ≤ capacity p len ∧
        t = finishOk (encodedSize v) none { s with buf := s.buf.writeBytes p (encodedBytes v) }) ∨
       (capacity p len < encodedSize v ∧ t = finishError .bufferTooSmall { s with
          draws := s.draws + 1
          buf := s.buf.writeBytes p ((encodedBytes v).take (writtenOnFailure (capacity p len) s.draws)) })) := by
  obtain ⟨hidle, u, hbegin, -⟩ := exec_encode_eq_next.1 h
  obtain ⟨v', p', len', hv', hpos', hlen', hrange, -⟩ := beginEncode_cases hbegin
  obtain rfl : len' = len := Option.some.inj (hlen'.symm.trans hlen)
  refine ⟨hidle, hrange, ?_⟩
  rcases le_or_gt (encodedSize v) (capacity p len') with hroom | hsmall
  · rw [exec_encode_room hv hpos hlen hrange hidle hroom] at h
    exact .inl ⟨hroom, (Host.Outcome.next.inj h).symm⟩
  · rw [exec_encode_tooSmall hv hpos hlen hrange hidle hsmall] at h
    exact .inr ⟨hsmall, (Host.Outcome.next.inj h).symm⟩

/-- An ENCODE reads all three operand registers (R166). -/
theorem exec_encode_operands (h : exec .encode s = .next t) :
    ∃ v p len, s.core.vin = some v ∧ s.core.pos = some p ∧ s.core.len = some len := by
  obtain ⟨-, u, hbegin, -⟩ := exec_encode_eq_next.1 h
  obtain ⟨v, p, len, hv, hpos, hlen, -⟩ := beginEncode_cases hbegin
  exact ⟨v, p, len, hv, hpos, hlen⟩

/-- STATUS tells a successful ENCODE from one without room (R105, R162). -/
theorem exec_encode_ok (hv : s.core.vin = some v) (hpos : s.core.pos = some p) (h : exec .encode s = .next t)
    (hok : t.core.status = some 0#3) : s.core.engine = .idle ∧ ∃ len, s.core.len = some len ∧ len ≤ 2 ^ s.addrBits ∧
      encodedSize v ≤ capacity p len ∧
      t = finishOk (encodedSize v) none { s with buf := s.buf.writeBytes p (encodedBytes v) } := by
  obtain ⟨-, -, len, -, -, hlen⟩ := exec_encode_operands h
  obtain ⟨hidle, hrange, ⟨hroom, ht⟩ | ⟨-, rfl⟩⟩ := exec_encode_cases hv hpos hlen h
  · exact ⟨hidle, len, hlen, hrange, hroom, ht⟩
  · exact absurd hok (by simp [finishError_eq, statusCode])

/-- The bytes of a successful ENCODE stand at POS and on (R105). -/
theorem exec_encode_read (hv : s.core.vin = some v) (hpos : s.core.pos = some p) (h : exec .encode s = .next t)
    (hok : t.core.status = some 0#3) {k : Nat} (hk : k < encodedSize v) : t.buf.read (p + k) = (encodedBytes v)[k]? := by
  obtain ⟨-, len, -, -, -, rfl⟩ := exec_encode_ok hv hpos h hok
  exact Memory.read_writeBytes_inside _ _ _ (by rwa [encodedBytes_length])

end

/-- Settles O15: with room ENCODE is `exec_encode_room`, and what it wrote is read back byte by byte. -/
theorem encodeResult : Obligations.EncodeResult := by
  intro s v p len hidle hv hpos hlen hrange hend
  have hroom := (room_iff (sizeOfMagnitude_pos (magnitude v))).1 hend
  refine ⟨?_, encodedBytes_length v, fun k hk => ?_⟩
  · rw [exec_encode_room hv hpos hlen hrange hidle hroom, finishOk_eq]
    exact congrArg Host.Outcome.next (finish_of_idle (by exact hidle) _ _ _)
  · rw [Memory.read_writeBytes_inside _ _ _ (by rwa [encodedBytes_length]), encodedBytes_getElem? hk]

/-- Settles O16, with the free value of log entry 3 as the number of bytes written (`exec_encode_tooSmall`). -/
theorem encodeBufferTooSmall : Obligations.EncodeBufferTooSmall := by
  intro s v p len hidle hv hpos hlen hrange hsmall
  refine ⟨_, writtenOnFailure_le _ _, rfl, ?_⟩
  rw [exec_encode_tooSmall hv hpos hlen hrange hidle hsmall, finishError_eq]
  exact congrArg Host.Outcome.next (finish_of_idle (by exact hidle) _ _ _)

/-- Settles O17: both ends of `exec_encode_cases` write within the first bytes from POS on, the whole encoding or a piece of it no longer
than the capacity. -/
theorem encodeFrame : Obligations.EncodeFrame := by
  intro s t v p len hv hpos hlen h
  obtain ⟨-, -, ⟨hroom, rfl⟩ | ⟨hsmall, rfl⟩⟩ := exec_encode_cases hv hpos hlen h
  · refine ⟨rfl, rfl, rfl, rfl, rfl, rfl, rfl, rfl, rfl, rfl, fun a ha => ?_⟩
    refine Memory.read_writeBytes_outside _ _ _ ?_
    rwa [encodedBytes_length, ← min_eq_left hroom]
  · refine ⟨rfl, rfl, rfl, rfl, rfl, rfl, rfl, rfl, rfl, rfl, fun a ha => ?_⟩
    have hwritten := writtenOnFailure_le (capacity p len) s.draws
    refine Memory.read_writeBytes_outside _ _ _ ?_
    rw [min_eq_right hsmall.le] at ha
    rw [List.length_take, encodedBytes_length]
    omega

/-- Settles O20: the bytes are those of R106 (`exec_encode_read`), which are canonical. -/
theorem encodeEmitsCanonical : Obligations.EncodeEmitsCanonical := by
  intro s t v p hv hpos h hok
  exact ⟨encodedBytes v, encodedBytes_length v,
    fun k hk => exec_encode_read hv hpos h hok (by rwa [encodedBytes_length] at hk), canonical_encodedBytes v⟩

/-- Settles O25: what ENCODE left is a sequence (`isSequence_encodedBytes`) that stands for the value (`carriedValue_encodedBytes`), so DECODE
of it is `decodeResult`. -/
theorem decodeInvertsEncode : Obligations.DecodeInvertsEncode := by
  intro s t u v p len hv hpos h hok hidle hpos' hlen' hend hrange hsame
  have hread : ∀ k, k < (encodedBytes v).length → u.buf.read (p + k) = (encodedBytes v)[k]? := fun k hk => by
    rw [encodedBytes_length] at hk
    rw [hsame k hk, exec_encode_read hv hpos h hok hk]
  have hdecode := decodeResult u p len (encodedBytes v) hidle hpos' hlen' hrange (isSequence_encodedBytes v)
    (by rwa [encodedBytes_length]) hread
  rwa [encodedBytes_length, carriedValue_encodedBytes] at hdecode

/-- Writing bytes where they stand already changes nothing, in canonical form. -/
theorem Memory.writeBytes_writeBytes {m : Memory} (h : Memory.wf m) (a : Nat) (bs : List Byte) :
    (m.writeBytes a bs).writeBytes a bs = m.writeBytes a bs := by
  have hwf := Memory.writeBytes_wf h a bs
  refine Memory.ext (Memory.writeBytes_wf hwf a bs) hwf fun x => ?_
  by_cases hx : x < a ∨ a + bs.length ≤ x
  · exact Memory.read_writeBytes_outside _ _ _ hx
  · obtain ⟨k, rfl⟩ := Nat.exists_eq_add_of_le (show a ≤ x by omega)
    rw [Memory.read_writeBytes_inside _ _ _ (by omega), Memory.read_writeBytes_inside _ _ _ (by omega)]

/-- A successful ENCODE, repeated, writes the same bytes again (R59). -/
theorem exec_encode_again {s t : State} (hwf : Memory.wf s.buf) (h : exec .encode s = .next t)
    (hok : t.core.status = some 0#3) : exec .encode t = .next t := by
  obtain ⟨v, p, -, hv, hpos, -⟩ := exec_encode_operands h
  obtain ⟨-, len, hlen, hrange, hroom, ht⟩ := exec_encode_ok hv hpos h hok
  have hagain : exec .encode t = .next (finishOk (encodedSize v) none { t with buf := t.buf.writeBytes p (encodedBytes v) }) := by
    subst ht
    exact exec_encode_room hv hpos hlen hrange rfl hroom
  have hbuf : t.buf.writeBytes p (encodedBytes v) = t.buf := by
    rw [ht]
    exact Memory.writeBytes_writeBytes hwf p (encodedBytes v)
  rw [hagain, hbuf, ht]
  rfl

end Sys2Proof.Machine
end

section
/-! The obligations about every command (spec/60_exceptions.md, R161, R166, R167, R174; spec/41_decoder.md, R140): its checks, the results
it leaves, and that a DECODE depends on nothing it changes. -/

namespace Sys2Proof.Machine

/-! ## The loop of a DECODE -/

/-- A DECODE whose next cell holds ⊥ faults (R51). -/
theorem drain_unwritten {s : State} {d : DecState} (hphase : d.phase = .accumulating) (hlimit : d.base + d.k < d.limit)
    (hrange : d.limit ≤ 2 ^ s.addrBits) (hread : s.buf.read (d.base + d.k) = none) (n : Nat) :
    drain (n + 1) (setEngine s (.decoding d)) = .fault .unwritten := by
  rw [drain_busy (by simp), tick_read rfl hphase hlimit, 
    bufRead_of_none (s := setEngine s (.decoding d)) _ (hlimit.trans_le hrange) hread, andThen_fault]

/-- Settles O24: behind the continuation bytes the cursor is at the cell (`exec_decode_behind_continuations`), and reading it faults. -/
theorem decodeUnwrittenCell : Obligations.DecodeUnwrittenCell := by
  intro s p len k hidle hpos hlen hrange hk hlimit hread hcont
  obtain ⟨d, ⟨hphase, rfl, rfl, rfl⟩, hexec⟩ := exec_decode_behind_continuations hidle hpos hlen hrange hk
    fun i hi => ⟨by omega, hcont i hi⟩
  rw [hexec, drain_unwritten hphase hlimit hrange hread]

/-- The results that a command may leave (R24, R161): a count from 1 to 10 with OK, none without. -/
structure EndsWith (st : Status) (count : Option (BitVec 4)) : Prop where
  ok : st = .ok → ∃ n, 1 ≤ n ∧ n ≤ 10 ∧ count = some (BitVec.ofNat 4 n)
  failed : st ≠ .ok → count = none

theorem EndsWith.finishOk {n : Nat} (hpos : 1 ≤ n) (hten : n ≤ 10) : EndsWith .ok (some (BitVec.ofNat 4 n)) :=
  ⟨fun _ => ⟨n, hpos, hten, rfl⟩, fun h => absurd rfl h⟩

theorem EndsWith.finishError {st : Status} (h : st ≠ .ok) : EndsWith st none := ⟨fun hok => absurd hok h, fun _ => rfl⟩

/-- A DECODE given all the turns it still takes ends with results that only the bytes, the buffer's size and its own state decide: on any
other state with these it ends the same. -/
theorem drain_decoding {n : Nat} {s t : State} {d : DecState} (hwf : d.Wf s.addrBits)
    (hturns : (Engine.decoding d).turnsLeft ≤ n) (h : drain n (setEngine s (.decoding d)) = .next t) :
    ∃ (st : Status) (count : Option (BitVec 4)) (vout : Option Word), EndsWith st count ∧ (vout ≠ none ↔ st = .ok) ∧
      t = finish st count vout s ∧ ∀ r : State, r.buf = s.buf → r.addrBits = s.addrBits →
        drain n (setEngine r (.decoding d)) = .next (finish st count vout r) := by
  induction n generalizing d with
  | zero =>
    cases hp : d.phase with
    | accumulating =>
      obtain ⟨-, -, hk⟩ := (DecState.wf_accumulating hp).1 hwf
      rw [Engine.turnsLeft_accumulating hp] at hturns
      omega
    | done => rw [Engine.turnsLeft_decoded hp] at hturns; omega
    | failed why => rw [Engine.turnsLeft_failed hp] at hturns; omega
  | succ n ih =>
    cases hp : d.phase with
    | accumulating =>
      have hleft : ∀ {d' : DecState}, (Engine.decoding d').turnsLeft < (Engine.decoding d).turnsLeft →
          (Engine.decoding d').turnsLeft ≤ n := fun hlt => Nat.le_of_lt_succ (hlt.trans_le hturns)
      rcases lt_or_ge (d.base + d.k) d.limit with hlt | hend
      · cases hread : s.buf.read (d.base + d.k) with
        | none => rw [drain_unwritten hp hlt hwf.1 hread] at h; cases h
        | some b =>
          rw [drain_consume hp hlt hwf.1 hread] at h
          obtain ⟨st, count, vout, hends, hvout, ht, hsame⟩ := ih (hwf.consume hp b) (hleft (turnsLeft_consume hwf hp b)) h
          refine ⟨st, count, vout, hends, hvout, ht, fun r hbuf hbits => ?_⟩
          rw [drain_consume hp hlt (hbits ▸ hwf.1) (hbuf ▸ hread), hsame r hbuf hbits]
      · have hat : d.AtByte d.base d.limit d.k := ⟨hp, rfl, rfl, rfl⟩
        have hone : (Engine.decoding (exhausted d)).turnsLeft ≤ n := by
          obtain ⟨-, -, hk⟩ := (DecState.wf_accumulating hp).1 hwf
          rw [Engine.turnsLeft_accumulating hp] at hturns
          rw [Engine.turnsLeft_failed rfl]; omega
        rw [hat.drain_exhausted hend] at h
        obtain ⟨st, count, vout, hends, hvout, ht, hsame⟩ := ih (hwf.exhausted hp) hone h
        refine ⟨st, count, vout, hends, hvout, ht, fun r hbuf hbits => ?_⟩
        rw [hat.drain_exhausted hend, hsame r hbuf hbits]
    | done =>
      obtain ⟨-, hpos, hten⟩ := (DecState.wf_done hp).1 hwf
      rw [drain_done hp] at h
      exact ⟨.ok, _, some (decodedValue d), .finishOk hpos hten, by simp, (Host.Outcome.next.inj h).symm,
        fun r _ _ => drain_done hp n⟩
    | failed why =>
      rw [drain_failed hp] at h
      have hfailed := failureStatus_ne_ok why
      exact ⟨_, none, none, .finishError hfailed, by simp [hfailed], (Host.Outcome.next.inj h).symm,
        fun r _ _ => drain_failed hp n⟩

/-- What a DECODE leaves (R133, R140, R161): its results, by which nothing that it reads has changed, so that it answers the same again
(R59). -/
theorem exec_decode_cases {s t : State} (h : exec .decode s = .next t) :
    s.core.engine = .idle ∧ exec .decode t = .next t ∧ ∃ (st : Status) (count : Option (BitVec 4)) (vout : Option Word),
      EndsWith st count ∧ (vout ≠ none ↔ st = .ok) ∧ t = finish st count vout s := by
  obtain ⟨hidle, u, hbegin, hdrain⟩ := exec_decode_eq_next.1 h
  obtain ⟨p, len, hpos, hlen, hrange, rfl⟩ := beginDecode_cases hbegin
  have hwf : (DecState.initial p len).Wf s.addrBits := (DecState.wf_accumulating rfl).2 ⟨hrange, rfl, Nat.zero_le 9⟩
  obtain ⟨st, count, vout, hends, hvout, rfl, hsame⟩ := drain_decoding hwf (Engine.Wf.turnsLeft_le (eng := .decoding _) hwf) hdrain
  refine ⟨hidle, ?_, st, count, vout, hends, hvout, rfl⟩
  rw [exec_decode_of_idle (s := finish st count vout s) rfl hpos hlen hrange]
  exact hsame _ rfl rfl

/-- Settles O27: the two commands, each repeated on what it left. -/
theorem repetitionChangesNothing : Obligations.RepetitionChangesNothing :=
  ⟨fun _ _ h => (exec_decode_cases h).2.1, fun _ _ => exec_encode_again⟩

/-! ## Checks -/

theorem whenIdle_busy {s : State} (k : State → Result) (h : s.core.engine ≠ .idle) : whenIdle s k = .fault .busy := if_neg h

theorem withinRange_gt {s : State} {len : Nat} (k : Result) (h : 2 ^ s.addrBits < len) :
    withinRange s len k = .refused .lenRange := if_neg h.not_ge

theorem beginEncode_unwritten {s : State} (h : s.core.vin = none ∨ s.core.pos = none ∨ s.core.len = none) :
    beginEncode s = .fault .unwritten := by
  unfold beginEncode
  cases hv : s.core.vin with
  | none => rfl
  | some v =>
    cases hpos : s.core.pos with
    | none => rfl
    | some p =>
      obtain hlen : s.core.len = none := by simpa [hv, hpos] using h
      rw [hlen]; rfl

theorem beginDecode_unwritten {s : State} (h : s.core.pos = none ∨ s.core.len = none) : beginDecode s = .fault .unwritten := by
  unfold beginDecode
  cases hpos : s.core.pos with
  | none => rfl
  | some p =>
    obtain hlen : s.core.len = none := by simpa [hpos] using h
    rw [hlen]; rfl

/-- Settles O34: the register reads come before everything else (`beginEncode_unwritten`, `beginDecode_unwritten`). -/
theorem unwrittenOperandFaults : Obligations.UnwrittenOperandFaults := by
  refine fun s hidle => ⟨fun h => ?_, fun h => ?_, fun h => ?_⟩
  · rw [exec_encode_eq_begin hidle, beginEncode_unwritten h, andThen_fault]
  · show execSize s = _
    rw [execSize, whenIdle_idle _ hidle, h, withValue_none]
  · rw [exec_decode_eq_begin hidle, beginDecode_unwritten h, andThen_fault]

/-- Settles O35: behind the register reads the check of LEN refuses (`withinRange_gt`). -/
theorem lenBeyondBufferRefused : Obligations.LenBeyondBufferRefused := by
  refine fun s p len hidle hpos hlen hbeyond => ⟨fun v hv => ?_, ?_⟩
  · have hbegin : beginEncode s = .refused .lenRange := by
      rw [beginEncode, hv, withValue_some, hpos, withValue_some, hlen, withValue_some, withinRange_gt _ hbeyond]
    rw [exec_encode_eq_begin hidle, hbegin, andThen_refused]
  · have hbegin : beginDecode s = .refused .lenRange := by
      rw [beginDecode, hpos, withValue_some, hlen, withValue_some, withinRange_gt _ hbeyond]
    rw [exec_decode_eq_begin hidle, hbegin, andThen_refused]

/-- Every command runs on an idle instance only (R174). -/
theorem exec_eq_whenIdle {i : Instr} (hcommand : i.isCommand = true) : ∃ k, ∀ s, exec i s = whenIdle s k := by
  cases i with
  | encode => exact ⟨fun t => andThen (beginEncode t) (drain maxTicks), fun _ => rfl⟩
  | size => exact ⟨fun t => withValue t.core.vin fun v => .next (finishOk (encodedSize v) none t), fun _ => rfl⟩
  | decode => exact ⟨fun t => andThen (beginDecode t) (drain maxTicks), fun _ => rfl⟩
  | reservedOp3 | reservedRsvd => exact ⟨fun t => .next (finishError .illegalCommand t), fun _ => rfl⟩
  | wireContinuation | wireFinal => cases hcommand

/-- Settles O36, by `exec_eq_whenIdle`. -/
theorem busyInstanceHasNoStep : Obligations.BusyInstanceHasNoStep := by
  intro s i hcommand hbusy
  obtain ⟨k, hk⟩ := exec_eq_whenIdle hcommand
  rw [hk, whenIdle_busy k hbusy]

/-! ## Results and frames -/

theorem illegalCommand_eq_next {s t : State} (h : illegalCommand s = .next t) :
    s.core.engine = .idle ∧ t = finish .illegalCommand none none s := by
  obtain ⟨hidle, h⟩ := whenIdle_eq_next.1 h
  exact ⟨hidle, (Host.Outcome.next.inj h).symm⟩

/-- A command that stores nothing only finishes, on an idle instance. -/
theorem exec_nonStoring {s t : State} {i : Instr} (hcommand : i.isCommand = true) (hstores : i ≠ .encode)
    (h : exec i s = .next t) : s.core.engine = .idle ∧
      ∃ (st : Status) (count : Option (BitVec 4)) (vout : Option Word), EndsWith st count ∧
        (vout ≠ none ↔ st = .ok ∧ i = .decode) ∧ t = finish st count vout s := by
  cases i with
  | encode => exact absurd rfl hstores
  | size =>
    obtain ⟨hidle, v, -, rfl⟩ := exec_size_eq_next.1 h
    exact ⟨hidle, .ok, _, none, .finishOk (sizeOfMagnitude_pos _) (sizeOfMagnitude_le _), by simp, rfl⟩
  | decode =>
    obtain ⟨hidle, -, st, count, vout, hends, hvout, ht⟩ := exec_decode_cases h
    exact ⟨hidle, st, count, vout, hends, by simpa using hvout, ht⟩
  | reservedOp3 | reservedRsvd =>
    obtain ⟨hidle, ht⟩ := illegalCommand_eq_next h
    exact ⟨hidle, .illegalCommand, none, none, .finishError Status.noConfusion, by simp, ht⟩
  | wireContinuation | wireFinal => cases hcommand

/-- Settles O37: `finish` on an idle instance replaces the result registers alone (`exec_nonStoring`). -/
theorem nonStoringCommandFrame : Obligations.NonStoringCommandFrame := by
  intro s t i hi h
  obtain ⟨hcommand, hstores⟩ : i.isCommand = true ∧ i ≠ .encode := by
    obtain rfl | rfl | rfl | ⟨rsvd, op, rfl⟩ := hi <;> exact ⟨rfl, Instr.noConfusion⟩
  obtain ⟨hidle, st, count, vout, -, -, rfl⟩ := exec_nonStoring hcommand hstores h
  exact ⟨finish_of_idle hidle st count vout, fun _ => rfl⟩

/-- Every command ends in a `finish` with results of R24 and R26. -/
theorem exec_results {s t : State} {i : Instr} (hcommand : i.isCommand = true) (h : exec i s = .next t) :
    ∃ (st : Status) (count : Option (BitVec 4)) (vout : Option Word) (u : State), EndsWith st count ∧
      (vout ≠ none ↔ st = .ok ∧ i = .decode) ∧ t = finish st count vout u := by
  by_cases hstores : i = .encode
  · subst hstores
    obtain ⟨v, p, len, hv, hpos, hlen⟩ := exec_encode_operands h
    obtain ⟨-, -, ⟨-, ht⟩ | ⟨-, ht⟩⟩ := exec_encode_cases hv hpos hlen h
    · exact ⟨.ok, _, none, _, .finishOk (sizeOfMagnitude_pos _) (sizeOfMagnitude_le _), by simp, ht⟩
    · exact ⟨.bufferTooSmall, none, none, _, .finishError Status.noConfusion, by simp, ht⟩
  · obtain ⟨-, st, count, vout, hends, hvout, ht⟩ := exec_nonStoring hcommand hstores h
    exact ⟨st, count, vout, s, hends, hvout, ht⟩

/-- Settles O39, by `exec_results`. -/
theorem resultsAfterCommand : Obligations.ResultsAfterCommand := by
  intro s t i hcommand h
  obtain ⟨st, count, vout, u, hends, hvout, rfl⟩ := exec_results hcommand h
  exact ⟨rfl, st, rfl, hends.ok, hends.failed, hvout⟩

end Sys2Proof.Machine
end

section
/-! The obligations about the host (spec/70_reset_and_hazards.md, R190, R195; spec/60_exceptions.md, R166, R174; spec/30_encoding.md, R84,
R85): what the step makes of a word in CMD and of each event of the script. -/

namespace Sys2Proof.Machine

/-! ## A word in CMD -/

/-- A word in CMD of the selected, idle instance is taken and run (R5, R22). -/
theorem step_command {s : State} {w : Byte} (hcmd : s.core.cmd = some w) (hidle : s.core.engine = .idle) :
    step s = exec (decodeCommand w) (takeCommand s) := by
  simp [step, runNext, hcmd, hidle]

/-- Settles O4, by `step_command`. -/
theorem stepRunsCommandWord : Obligations.StepRunsCommandWord := by
  rintro s w _ hcmd hidle rfl
  exact step_command hcmd hidle

theorem decodeTableWord_eq_some {nbits w : Nat} {i : Instr} (h : decodeTableWord nbits w = some i) :
    decodeCommand (BitVec.ofNat 8 w) = i := by
  unfold decodeTableWord at h
  split at h
  · exact Option.some.inj h
  · cases h

/-- Settles O5: a word placed stands in CMD of an idle instance, so the step takes it (`step_command`). -/
theorem placedWordRunsNext : Obligations.PlacedWordRunsNext := by
  intro s nbits w i h
  rw [← decodeTableWord_eq_some h]
  exact step_command (s := placeCommand (BitVec.ofNat 8 w) s) rfl rfl

/-- Settles O6: the instance's next access is the row of the byte (`nextWireByte_eq_some`). -/
theorem stepRunsWireByte : Obligations.StepRunsWireByte := by
  intro s t i rest d b hcmd hscript hselect he hp hlt hrange hread
  obtain ⟨hbits, hbuf, -⟩ := select_frame hselect
  have hbyte : nextWireByte t = some b :=
    nextWireByte_eq_some.2 ⟨d, he, hp, hlt, by rw [hbits]; exact hrange, by rw [hbuf]; exact hread⟩
  calc step s = advanceAt i { s with script := rest } := step_event hcmd hscript
    _ = advance t := by rw [advanceAt, hselect]
    _ = exec (decodeWire b) t := by rw [advance, hbyte]

/-! ## Events that name an instance -/

section
variable {s t : State} {i : Nat} {rest : List Event}

section
variable (hcmd : s.core.cmd = none) (hselect : select i s = some t)
include hcmd hselect

theorem step_write (hidle : t.core.engine = .idle) {r : Reg} {v : Nat} (h : s.script = .write i r v :: rest) :
    step s = hostWrite r v { t with script := rest } := by
  rw [step_event hcmd h]
  exact onceIdle_idle hselect hidle

theorem step_read (hidle : t.core.engine = .idle) {r : Reg} (h : s.script = .read i r :: rest) :
    step s = hostRead r { t with script := rest } := by
  rw [step_event hcmd h]
  exact onceIdle_idle hselect hidle

theorem step_start (hidle : t.core.engine = .idle) {w : Byte} (h : s.script = .start i w :: rest) :
    step s = beginCommand (decodeCommand w) { t with script := rest } := by
  rw [step_event hcmd h]
  exact onceIdle_idle hselect hidle

/-- A busy instance makes its next access instead, and the event stays in store (R174, R195). -/
theorem step_busy (hbusy : t.core.engine ≠ .idle) {r : Reg} {v : Nat} {w : Byte}
    (h : s.script = .write i r v :: rest ∨ s.script = .start i w :: rest ∨ s.script = .read i r :: rest) :
    step s = advance t := by
  obtain h | h | h := h <;> rw [step_event hcmd h] <;> exact onceIdle_busy hselect hbusy

end

theorem ofWidth_of_lt {bits v : Nat} (k : Result) (h : v < 2 ^ bits) : ofWidth bits v k = k := if_pos h

/-- Settles O40: the three writes of operand registers, each of a value of the register's width. -/
theorem hostWritesOperand : Obligations.HostWritesOperand := by
  intro s t i v rest hcmd hselect hidle
  obtain ⟨hbits, -⟩ := select_frame hselect
  refine ⟨fun h hv => ?_, fun h hv => ?_, fun h hv => ?_⟩
  · rw [step_write hcmd hselect hidle h]
    exact ofWidth_of_lt _ hv
  · rw [step_write hcmd hselect hidle h]
    exact ofWidth_of_lt _ (by rw [hbits]; exact hv)
  · rw [step_write hcmd hselect hidle h]
    exact ofWidth_of_lt _ (by rw [hbits]; exact hv)

/-- Settles O41: the first step is the write of CMD, the second takes the word (`step_command`). -/
theorem hostIssuesCommand : Obligations.HostIssuesCommand := by
  intro s t i w rest hcmd hselect hidle h
  refine ⟨{ t with script := rest, core := { t.core with cmd := some w } }, ?_, rfl, step_command rfl hidle⟩
  have hw : BitVec.ofNat 8 w.toNat = w := BitVec.ofNat_toNat _ _ |>.trans (BitVec.setWidth_eq w)
  rw [step_write hcmd hselect hidle h, hostWrite, ofWidth_of_lt _ w.isLt, hw]

/-- Settles O42, by the arms of `hostRead` and `hostWrite` for these registers. -/
theorem notInterfaceRefused : Obligations.NotInterfaceRefused := by
  intro s t i v rest hcmd hselect hidle
  refine ⟨fun h => ?_, fun h => ?_, fun h => ?_, fun h => ?_⟩
  · rw [step_read hcmd hselect hidle h, hostRead]
  · rw [step_write hcmd hselect hidle h, hostWrite]
  · rw [step_write hcmd hselect hidle h, hostWrite]
  · rw [step_write hcmd hselect hidle h, hostWrite]

/-- Settles O43: each result register is read with `withValue`. -/
theorem hostReadsResult : Obligations.HostReadsResult := by
  intro s t i rest hcmd hselect hidle
  refine ⟨fun h => ?_, fun h => ?_, fun h => ?_⟩ <;> rw [step_read hcmd hselect hidle h] <;>
    exact ⟨fun hnone => by simp [hostRead, hnone], fun x hx => by simp [hostRead, hx]⟩

/-- A turn leaves the host's script as it was. -/
theorem tick_script (h : tick s = .next t) : t.script = s.script := by
  rw [tick_frame h]

theorem advanceAt_script (h : advanceAt i s = .next t) : t.script = s.script := by
  obtain ⟨u, hu, hturn⟩ := advanceAt_eq_next.1 h
  exact (tick_script hturn).trans (select_frame hu).2.2.1

/-- Settles O49: a step that waits is a turn of the busy instance (`step_busy`, `step_waits_all`), and no turn changes the script. -/
theorem hostWaitsForBusyInstance : Obligations.HostWaitsForBusyInstance := by
  refine ⟨fun s t i r v w rest hcmd hselect hbusy h => ?_, fun s i a rest hcmd hbusy h => ?_⟩
  · have hstep := step_busy hcmd hselect hbusy h
    refine ⟨hstep, fun u hu => ?_⟩
    rw [hstep, advance_eq_tick] at hu
    exact (tick_script hu).trans (select_frame hselect).2.2.1
  · have hstep := step_waits_all hcmd hbusy h
    exact ⟨hstep, fun u hu => advanceAt_script (hstep ▸ hu)⟩

theorem beginDecode_of_operands {p len : Nat} (hpos : s.core.pos = some p) (hlen : s.core.len = some len)
    (hrange : len ≤ 2 ^ s.addrBits) : beginDecode s = .next (setEngine s (.decoding (DecState.initial p len))) := by
  rw [beginDecode, hpos, withValue_some, hlen, withValue_some, withinRange_le _ hrange]
  rfl

/-- Only ENCODE and DECODE make buffer accesses; any other command begun has completed (R58). -/
theorem beginCommand_eq_exec {j : Instr} (hencode : j ≠ .encode) (hdecode : j ≠ .decode) : beginCommand j s = exec j s := by
  cases j with
  | encode => exact absurd rfl hencode
  | decode => exact absurd rfl hdecode
  | size | reservedOp3 | reservedRsvd | wireContinuation | wireFinal => rfl

/-- Settles O48: the start is `beginCommand` (`step_start`), whose forms are `beginEncode_room`, `beginEncode_tooSmall` and
`beginDecode_of_operands`. -/
theorem hostStartsCommand : Obligations.HostStartsCommand := by
  intro s t i w rest hcmd hselect hidle h
  obtain ⟨hbits, -, -, -, hdraws, -⟩ := select_frame hselect
  rw [step_start hcmd hselect hidle h]
  refine ⟨fun v p len hw hv hpos hlen hrange => ⟨fun hend => ?_, fun hsmall => ?_⟩, fun p len hw hpos hlen hrange => ?_, ?_⟩
  · rw [hw]
    exact beginEncode_room (s := { t with script := rest }) hv hpos hlen (hbits ▸ hrange)
      ((room_iff (sizeOfMagnitude_pos _)).1 hend)
  · refine ⟨_, writtenOnFailure_le _ _, rfl, ?_⟩
    rw [hw, ← hdraws]
    exact beginEncode_tooSmall (s := { t with script := rest }) hv hpos hlen (hbits ▸ hrange) hsmall
  · rw [hw]
    exact beginDecode_of_operands (s := { t with script := rest }) hpos hlen (hbits ▸ hrange)
  · exact beginCommand_eq_exec

end

/-! ## Buffer cells -/

/-- Settles O46: a POKE inside the buffer is `bufferWriteSetsOneCell`, outside it faults. -/
theorem hostPokesCell : Obligations.HostPokesCell := by
  intro s a b rest hcmd h
  have hstep : step s = bufWrite { s with script := rest } a b := step_event hcmd h
  rw [hstep]
  refine ⟨fun ha => bufferWriteSetsOneCell { s with script := rest } a b ha, fun ha => if_neg ha.not_gt⟩

/-- Settles O47: with no command running the read is `hostPeek`, which is `bufRead`. -/
theorem hostPeeksCell : Obligations.HostPeeksCell := by
  intro s a rest hcmd h hidle
  have hstep : step s = hostPeek a { s with script := rest } := by
    rw [step_event hcmd h]
    exact onceAllIdle_idle hidle
  rw [hstep, hostPeek]
  refine ⟨fun b ha hb => ?_, fun ha hb => ?_, fun ha => if_neg ha.not_gt⟩
  · exact bufRead_of_some (s := { s with script := rest }) _ ha hb
  · exact bufRead_of_none (s := { s with script := rest }) _ ha hb

/-! ## Reset -/

/-- Settles O50: with no command running the event is `resetAll`, and at the start of a run every instance is `Codec.reset`. -/
theorem resetLeaves : Obligations.ResetLeaves := by
  refine ⟨fun s rest hcmd h hidle => ?_, fun bits more => ⟨?_, resetWith_codecs bits more, fun _ => rfl, rfl⟩,
    rfl, rfl, rfl, rfl, rfl, rfl, rfl, rfl⟩
  · refine ⟨resetAll { s with script := rest }, ?_, ?_, resetAll_codecs _, rfl, rfl, rfl, rfl⟩
    · rw [step_event hcmd h]
      exact onceAllIdle_idle (k := fun u => .next (resetAll u)) hidle
    · simp [State.codecs]
  · simp [State.codecs, State.resetWith]

/-! ## The command language -/

/-- The lines of a POKES poke one cell each, from its address on (R85). -/
theorem expandPokes_events (codec addr : Nat) (bs : List Byte) :
    (expandPokes addr bs).flatMap (lineEvents codec) = lineEvents codec (.pokes addr bs) := by
  induction bs generalizing addr with
  | nil => rfl
  | cons b bs ih =>
    rw [expandPokes, List.flatMap_cons, ih, lineEvents, lineEvents, lineEvents, List.zipIdx_cons, List.map_cons,
      List.zipIdx_succ, List.map_map]
    simp [Function.comp_def, Nat.add_assoc, Nat.add_comm 1]

theorem expandPokes_expanded {addr : Nat} {bs : List Byte} {l : Line} (h : l ∈ expandPokes addr bs) : expand l = [l] := by
  induction bs generalizing addr with
  | nil => cases h
  | cons b bs ih =>
    rcases List.mem_cons.1 h with rfl | h
    · rfl
    · exact ih h

/-- Settles O44: a POKES by induction over its bytes, the other pseudo-commands line by line. -/
theorem pseudoCommandsAreTheirExpansions : Obligations.PseudoCommandsAreTheirExpansions := by
  intro codec l
  cases l with
  | pokes addr bs => exact ⟨expandPokes_events codec addr bs, fun _ => expandPokes_expanded⟩
  | setVin | setPos | setLen | encode | size | decode | cmd | poke | encodeAt | sizeValue | decodeAt =>
    exact ⟨rfl, by simp [expand]⟩

end Sys2Proof.Machine
end
